-- ==== Sys2Proof/Word.lean ====
section
/-! DEFINITION. The word types of the machine (10_state.md, 30_encoding.md rule R51). Every value is
unsigned. -/

namespace Sys2Proof

/-- A general register, a timer, a memory cell, an immediate `nn` (rules R10, R16, R31, R51). -/
abbrev Byte := BitVec 8

/-- `I`, `PC`, `IR`, a stack entry, an instruction word (rules R12, R13, R15, R23, R50). -/
abbrev Word := BitVec 16

/-- The 12-bit absolute address `nnn` of an instruction word (rules R51, R53). -/
abbrev Addr12 := BitVec 12

/-- The number of a general register, a 4-bit field (rules R10, R51). -/
abbrev RegIdx := Fin 16

end Sys2Proof
end

