-- ==== Sys2Proof/Syntax.lean ====
section
/-! DEFINITION. The 34 instructions of 30_encoding.md rule R62, one constructor each, named by the
pattern the spec calls the instruction by (rule R61). -/

namespace Sys2Proof

/-- Rule R62, in the order of its table. `x`, `y` are register numbers, `nn` the immediate byte, `nnn` the
12-bit address and `n` the row count of a draw (rules R51, R53). -/
inductive Instr where
  | op00E0
  | op00EE
  | op1NNN (nnn : Addr12)
  | op2NNN (nnn : Addr12)
  | op3XNN (x : RegIdx) (nn : Byte)
  | op4XNN (x : RegIdx) (nn : Byte)
  | op5XY0 (x y : RegIdx)
  | op9XY0 (x y : RegIdx)
  | op6XNN (x : RegIdx) (nn : Byte)
  | op7XNN (x : RegIdx) (nn : Byte)
  | op8XY0 (x y : RegIdx)
  | op8XY1 (x y : RegIdx)
  | op8XY2 (x y : RegIdx)
  | op8XY3 (x y : RegIdx)
  | op8XY4 (x y : RegIdx)
  | op8XY5 (x y : RegIdx)
  /-- `y` is carried by the word and ignored (rule R59). -/
  | op8XY6 (x y : RegIdx)
  | op8XY7 (x y : RegIdx)
  /-- `y` is carried by the word and ignored (rule R59). -/
  | op8XYE (x y : RegIdx)
  | opANNN (nnn : Addr12)
  | opBNNN (nnn : Addr12)
  | opCXNN (x : RegIdx) (nn : Byte)
  /-- `n` is a count of rows, 0 to 15 (rule R53); Instr.WellFormed holds it to that range. -/
  | opDXYN (x y : RegIdx) (n : Nat)
  | opEX9E (x : RegIdx)
  | opEXA1 (x : RegIdx)
  | opFX07 (x : RegIdx)
  | opFX15 (x : RegIdx)
  | opFX18 (x : RegIdx)
  | opFX0A (x : RegIdx)
  | opFX1E (x : RegIdx)
  | opFX29 (x : RegIdx)
  | opFX33 (x : RegIdx)
  /-- `x` is used as a count (rule R59). -/
  | opFX55 (x : RegIdx)
  /-- `x` is used as a count (rule R59). -/
  | opFX65 (x : RegIdx)
  deriving DecidableEq, Repr

end Sys2Proof
end

