-- ==== Sys2Proof/WellFormed.lean ====
section
/-! DEFINITION. The one operand whose range its type does not carry: the row count of `DXYN`
(30_encoding.md rule R53, "an unsigned row count 0..15"). Register numbers, `nn` and `nnn` are bounded
by their types. -/

namespace Sys2Proof

/-- The operands are values the fields of rule R51 can hold. -/
def Instr.wellFormed : Instr → Bool
  | .opDXYN _ _ n => decide (n < 16)
  | .op00E0 | .op00EE => true
  | .op1NNN _ | .op2NNN _ | .opANNN _ | .opBNNN _ => true
  | .op3XNN _ _ | .op4XNN _ _ | .op6XNN _ _ | .op7XNN _ _ | .opCXNN _ _ => true
  | .op5XY0 _ _ | .op9XY0 _ _ => true
  | .op8XY0 _ _ | .op8XY1 _ _ | .op8XY2 _ _ | .op8XY3 _ _ | .op8XY4 _ _ => true
  | .op8XY5 _ _ | .op8XY6 _ _ | .op8XY7 _ _ | .op8XYE _ _ => true
  | .opEX9E _ | .opEXA1 _ | .opFX07 _ | .opFX15 _ | .opFX18 _ | .opFX0A _ => true
  | .opFX1E _ | .opFX29 _ | .opFX33 _ | .opFX55 _ | .opFX65 _ => true

/-- The same, as a proposition for statements. -/
abbrev Instr.WellFormed (i : Instr) : Prop := i.wellFormed = true

end Sys2Proof
end

