-- ==== Sys2Proof/Decode.lean ====
section
/-! DEFINITION. Decoding of 16-bit words and of bytes, the encoder, and the opcode map of
30_encoding.md rule R62. -/

namespace Sys2Proof

/-! ### Fields (rule R51) -/

/-- `op = w[15:12]`, the family selector. -/
def fieldOp (w : Word) : Nat := (w.extractLsb' 12 4).toNat

/-- `x = w[11:8]`, a register number. -/
def fieldX (w : Word) : RegIdx := (w.extractLsb' 8 4).toFin

/-- `y = w[7:4]`, a register number. -/
def fieldY (w : Word) : RegIdx := (w.extractLsb' 4 4).toFin

/-- `n = w[3:0]`, a row count or a function code (92_eei_decisions.md D31). -/
def fieldN (w : Word) : Nat := (w.extractLsb' 0 4).toNat

/-- `nn = w[7:0]`, the immediate byte or a function code. -/
def fieldNN (w : Word) : Byte := w.extractLsb' 0 8

/-- `nnn = w[11:0]`, the address. -/
def fieldNNN (w : Word) : Addr12 := w.extractLsb' 0 12

/-! ### Decoding -/

/-- Why bytes are not an instruction. -/
inductive DecodeError where
  /-- The word matches none of the 34 patterns (rule R57). -/
  | unknownOpcode (w : Word)
  /-- Fewer than the two bytes of an instruction word were given (rule R50). -/
  | tooFewBytes
  deriving DecidableEq, Repr

/-- Family 0: the whole word is the key (rule R55). -/
def decodeFamily0 (w : Word) : Except DecodeError Instr :=
  if w = 0x00E0#16 then .ok .op00E0
  else if w = 0x00EE#16 then .ok .op00EE
  else .error (.unknownOpcode w)

/-- Family 8: `n` is the key (rule R55). -/
def decodeFamily8 (w : Word) : Except DecodeError Instr :=
  match fieldN w with
  | 0x0 => .ok (.op8XY0 (fieldX w) (fieldY w))
  | 0x1 => .ok (.op8XY1 (fieldX w) (fieldY w))
  | 0x2 => .ok (.op8XY2 (fieldX w) (fieldY w))
  | 0x3 => .ok (.op8XY3 (fieldX w) (fieldY w))
  | 0x4 => .ok (.op8XY4 (fieldX w) (fieldY w))
  | 0x5 => .ok (.op8XY5 (fieldX w) (fieldY w))
  | 0x6 => .ok (.op8XY6 (fieldX w) (fieldY w))
  | 0x7 => .ok (.op8XY7 (fieldX w) (fieldY w))
  | 0xE => .ok (.op8XYE (fieldX w) (fieldY w))
  | _ => .error (.unknownOpcode w)

/-- Family E: `nn` is the key (rule R55). -/
def decodeFamilyE (w : Word) : Except DecodeError Instr :=
  match (fieldNN w).toNat with
  | 0x9E => .ok (.opEX9E (fieldX w))
  | 0xA1 => .ok (.opEXA1 (fieldX w))
  | _ => .error (.unknownOpcode w)

/-- Family F: `nn` is the key (rule R55). -/
def decodeFamilyF (w : Word) : Except DecodeError Instr :=
  match (fieldNN w).toNat with
  | 0x07 => .ok (.opFX07 (fieldX w))
  | 0x0A => .ok (.opFX0A (fieldX w))
  | 0x15 => .ok (.opFX15 (fieldX w))
  | 0x18 => .ok (.opFX18 (fieldX w))
  | 0x1E => .ok (.opFX1E (fieldX w))
  | 0x29 => .ok (.opFX29 (fieldX w))
  | 0x33 => .ok (.opFX33 (fieldX w))
  | 0x55 => .ok (.opFX55 (fieldX w))
  | 0x65 => .ok (.opFX65 (fieldX w))
  | _ => .error (.unknownOpcode w)

/-- Rules R54 to R60: the instruction a word is, or its refusal by name. Total, and a function of the
word alone. -/
def decodeWord (w : Word) : Except DecodeError Instr :=
  match fieldOp w with
  | 0x0 => decodeFamily0 w
  | 0x1 => .ok (.op1NNN (fieldNNN w))
  | 0x2 => .ok (.op2NNN (fieldNNN w))
  | 0x3 => .ok (.op3XNN (fieldX w) (fieldNN w))
  | 0x4 => .ok (.op4XNN (fieldX w) (fieldNN w))
  | 0x5 => if fieldN w = 0 then .ok (.op5XY0 (fieldX w) (fieldY w)) else .error (.unknownOpcode w)
  | 0x6 => .ok (.op6XNN (fieldX w) (fieldNN w))
  | 0x7 => .ok (.op7XNN (fieldX w) (fieldNN w))
  | 0x8 => decodeFamily8 w
  | 0x9 => if fieldN w = 0 then .ok (.op9XY0 (fieldX w) (fieldY w)) else .error (.unknownOpcode w)
  | 0xA => .ok (.opANNN (fieldNNN w))
  | 0xB => .ok (.opBNNN (fieldNNN w))
  | 0xC => .ok (.opCXNN (fieldX w) (fieldNN w))
  | 0xD => .ok (.opDXYN (fieldX w) (fieldY w) (fieldN w))
  | 0xE => decodeFamilyE w
  | 0xF => decodeFamilyF w
  | _ => .error (.unknownOpcode w)

/-- Rule R36: a word from its two bytes, the byte at the lower address first, in bits 15..8. -/
def wordOfBytes (hi lo : Byte) : Word := hi ++ lo

/-- Rule R50: the instruction at the head of a list of bytes and the bytes after it. -/
def decodeBytes : List Byte → Except DecodeError (Instr × List Byte)
  | hi :: lo :: rest =>
    match decodeWord (wordOfBytes hi lo) with
    | .ok i => .ok (i, rest)
    | .error e => .error e
  | _ => .error .tooFewBytes

/-! ### Encoding (rule R52, the five formats) -/

/-- A register number as its 4-bit field. -/
def nibble (x : RegIdx) : BitVec 4 := .ofFin x

/-- Format `NNN`. -/
def formatNNN (op : BitVec 4) (nnn : Addr12) : Word := op ++ nnn

/-- Formats `XNN` and `XKK`: `kk` is the immediate or the function code. -/
def formatXNN (op : BitVec 4) (x : RegIdx) (kk : Byte) : Word := op ++ nibble x ++ kk

/-- Format `XYN`: `n` is the row count or the function code. -/
def formatXYN (op : BitVec 4) (x y : RegIdx) (n : BitVec 4) : Word :=
  op ++ nibble x ++ nibble y ++ n

/-- The word of a well-formed instruction (rules R52, R62). -/
def encode : Instr → Word
  | .op00E0 => 0x00E0#16
  | .op00EE => 0x00EE#16
  | .op1NNN nnn => formatNNN 0x1#4 nnn
  | .op2NNN nnn => formatNNN 0x2#4 nnn
  | .op3XNN x nn => formatXNN 0x3#4 x nn
  | .op4XNN x nn => formatXNN 0x4#4 x nn
  | .op5XY0 x y => formatXYN 0x5#4 x y 0x0#4
  | .op9XY0 x y => formatXYN 0x9#4 x y 0x0#4
  | .op6XNN x nn => formatXNN 0x6#4 x nn
  | .op7XNN x nn => formatXNN 0x7#4 x nn
  | .op8XY0 x y => formatXYN 0x8#4 x y 0x0#4
  | .op8XY1 x y => formatXYN 0x8#4 x y 0x1#4
  | .op8XY2 x y => formatXYN 0x8#4 x y 0x2#4
  | .op8XY3 x y => formatXYN 0x8#4 x y 0x3#4
  | .op8XY4 x y => formatXYN 0x8#4 x y 0x4#4
  | .op8XY5 x y => formatXYN 0x8#4 x y 0x5#4
  | .op8XY6 x y => formatXYN 0x8#4 x y 0x6#4
  | .op8XY7 x y => formatXYN 0x8#4 x y 0x7#4
  | .op8XYE x y => formatXYN 0x8#4 x y 0xE#4
  | .opANNN nnn => formatNNN 0xA#4 nnn
  | .opBNNN nnn => formatNNN 0xB#4 nnn
  | .opCXNN x nn => formatXNN 0xC#4 x nn
  | .opDXYN x y n => formatXYN 0xD#4 x y (BitVec.ofNat 4 n)
  | .opEX9E x => formatXNN 0xE#4 x 0x9E#8
  | .opEXA1 x => formatXNN 0xE#4 x 0xA1#8
  | .opFX07 x => formatXNN 0xF#4 x 0x07#8
  | .opFX15 x => formatXNN 0xF#4 x 0x15#8
  | .opFX18 x => formatXNN 0xF#4 x 0x18#8
  | .opFX0A x => formatXNN 0xF#4 x 0x0A#8
  | .opFX1E x => formatXNN 0xF#4 x 0x1E#8
  | .opFX29 x => formatXNN 0xF#4 x 0x29#8
  | .opFX33 x => formatXNN 0xF#4 x 0x33#8
  | .opFX55 x => formatXNN 0xF#4 x 0x55#8
  | .opFX65 x => formatXNN 0xF#4 x 0x65#8

/-- Rule R36: the two bytes of a word as memory holds them, high byte first. -/
def bytesOfWord (w : Word) : List Byte := [w.extractLsb' 8 8, w.extractLsb' 0 8]

/-- The bytes of a well-formed instruction. -/
def encodeBytes (i : Instr) : List Byte := bytesOfWord (encode i)

/-! ### The opcode map (rule R62, opcode_table.json) -/

/-- One row: a word is the instruction iff its bits under `mask` are `mtch`. -/
structure OpcodeRow where
  pattern : String
  mtch : Word
  mask : Word
  deriving DecidableEq, Repr

/-- The row of rule R62 an instruction belongs to. -/
def Instr.row : Instr → OpcodeRow
  | .op00E0 => ⟨"00E0", 0x00E0#16, 0xFFFF#16⟩
  | .op00EE => ⟨"00EE", 0x00EE#16, 0xFFFF#16⟩
  | .op1NNN _ => ⟨"1NNN", 0x1000#16, 0xF000#16⟩
  | .op2NNN _ => ⟨"2NNN", 0x2000#16, 0xF000#16⟩
  | .op3XNN _ _ => ⟨"3XNN", 0x3000#16, 0xF000#16⟩
  | .op4XNN _ _ => ⟨"4XNN", 0x4000#16, 0xF000#16⟩
  | .op5XY0 _ _ => ⟨"5XY0", 0x5000#16, 0xF00F#16⟩
  | .op9XY0 _ _ => ⟨"9XY0", 0x9000#16, 0xF00F#16⟩
  | .op6XNN _ _ => ⟨"6XNN", 0x6000#16, 0xF000#16⟩
  | .op7XNN _ _ => ⟨"7XNN", 0x7000#16, 0xF000#16⟩
  | .op8XY0 _ _ => ⟨"8XY0", 0x8000#16, 0xF00F#16⟩
  | .op8XY1 _ _ => ⟨"8XY1", 0x8001#16, 0xF00F#16⟩
  | .op8XY2 _ _ => ⟨"8XY2", 0x8002#16, 0xF00F#16⟩
  | .op8XY3 _ _ => ⟨"8XY3", 0x8003#16, 0xF00F#16⟩
  | .op8XY4 _ _ => ⟨"8XY4", 0x8004#16, 0xF00F#16⟩
  | .op8XY5 _ _ => ⟨"8XY5", 0x8005#16, 0xF00F#16⟩
  | .op8XY6 _ _ => ⟨"8XY6", 0x8006#16, 0xF00F#16⟩
  | .op8XY7 _ _ => ⟨"8XY7", 0x8007#16, 0xF00F#16⟩
  | .op8XYE _ _ => ⟨"8XYE", 0x800E#16, 0xF00F#16⟩
  | .opANNN _ => ⟨"ANNN", 0xA000#16, 0xF000#16⟩
  | .opBNNN _ => ⟨"BNNN", 0xB000#16, 0xF000#16⟩
  | .opCXNN _ _ => ⟨"CXNN", 0xC000#16, 0xF000#16⟩
  | .opDXYN _ _ _ => ⟨"DXYN", 0xD000#16, 0xF000#16⟩
  | .opEX9E _ => ⟨"EX9E", 0xE09E#16, 0xF0FF#16⟩
  | .opEXA1 _ => ⟨"EXA1", 0xE0A1#16, 0xF0FF#16⟩
  | .opFX07 _ => ⟨"FX07", 0xF007#16, 0xF0FF#16⟩
  | .opFX15 _ => ⟨"FX15", 0xF015#16, 0xF0FF#16⟩
  | .opFX18 _ => ⟨"FX18", 0xF018#16, 0xF0FF#16⟩
  | .opFX0A _ => ⟨"FX0A", 0xF00A#16, 0xF0FF#16⟩
  | .opFX1E _ => ⟨"FX1E", 0xF01E#16, 0xF0FF#16⟩
  | .opFX29 _ => ⟨"FX29", 0xF029#16, 0xF0FF#16⟩
  | .opFX33 _ => ⟨"FX33", 0xF033#16, 0xF0FF#16⟩
  | .opFX55 _ => ⟨"FX55", 0xF055#16, 0xF0FF#16⟩
  | .opFX65 _ => ⟨"FX65", 0xF065#16, 0xF0FF#16⟩

/-- One instruction of each row, in the order of rule R62's table. -/
def instrOfEachRow : List Instr :=
  [.op00E0, .op00EE, .op1NNN 0, .op2NNN 0, .op3XNN 0 0, .op4XNN 0 0, .op5XY0 0 0, .op9XY0 0 0,
   .op6XNN 0 0, .op7XNN 0 0, .op8XY0 0 0, .op8XY1 0 0, .op8XY2 0 0, .op8XY3 0 0, .op8XY4 0 0,
   .op8XY5 0 0, .op8XY6 0 0, .op8XY7 0 0, .op8XYE 0 0, .opANNN 0, .opBNNN 0, .opCXNN 0 0,
   .opDXYN 0 0 0, .opEX9E 0, .opEXA1 0, .opFX07 0, .opFX15 0, .opFX18 0, .opFX0A 0, .opFX1E 0,
   .opFX29 0, .opFX33 0, .opFX55 0, .opFX65 0]

/-- The 34 rows of rule R62. -/
def opcodeTable : List OpcodeRow := instrOfEachRow.map Instr.row

/-- A word agrees with a row (rule R56: `w & mask == match`). -/
abbrev OpcodeRow.Matches (r : OpcodeRow) (w : Word) : Prop := w &&& r.mask = r.mtch

/-! ### The host's question about a table word -/

/-- The bytes of an instruction whose bits are `w`, numbered as opcode_table.json numbers them, the bits
above `nbits` being 0. One word of 16 bits is the longest instruction. -/
def tableWordBytes (nbits w : Nat) : List Byte := bytesOfWord (BitVec.ofNat 16 (w % 2 ^ nbits))

/-- The instruction the decoder reads from such a word, none where it refuses. -/
def decodeTableWord (nbits w : Nat) : Option Instr :=
  match decodeBytes (tableWordBytes nbits w) with
  | .ok (i, _) => some i
  | .error _ => none

end Sys2Proof
end

