-- ==== Sys2Proof/Machine/Flags.lean ====
section
/-! DEFINITION. The values the flag-writing instructions put into `VF` (10_state.md rule R11,
42_load_alu.md). -/

namespace Sys2Proof.Machine

/-- A flag as the byte `VF` holds. -/
def flagByte (c : Bool) : Byte := if c then 1 else 0

/-- `8XY4` (rule R116): 1 if `b > 255 - a`, the sum does not fit a byte. -/
def carryFlag (a b : Byte) : Byte := flagByte (decide (b.toNat > 255 - a.toNat))

/-- `8XY5`, `8XY7` (rules R117, R119) for `a - b`: 0 if `b > a`, a borrow, else 1. -/
def noBorrowFlag (a b : Byte) : Byte := flagByte (!decide (b.toNat > a.toNat))

/-- `8XY6` (rule R118): the bit a right shift drops. -/
def lowBitFlag (a : Byte) : Byte := a &&& 1

/-- `8XYE` (rule R120): the bit a left shift drops. -/
def highBitFlag (a : Byte) : Byte := a >>> 7

end Sys2Proof.Machine
end

