-- ==== Sys2Proof/Config.lean ====
section
/-! DEFINITION. What is fixed for the machine (00_scope.md rule R4), the default of the open parameter
`TICK_EN` (rule R5), and the one free value, the random byte of a `Step` (rule R5, 92_eei_decisions.md
D13). -/

namespace Sys2Proof.Config

/-- Rule R30: addresses run from 0 to 0xFFF, so the memory has this many cells. -/
def memSize : Nat := 0x1000

/-- Rules R4, R13, R32: the reset value of `PC` and the address a program is loaded at. -/
def programBase : Nat := 0x200

/-- Rules R4, R194: the largest program image, in bytes. -/
def romMax : Nat := 0xE00

/-- Rules R5, R74: `TICK_EN` is 1 on every `Step` of the reference design. -/
def tickEnDefault : Bool := true

/-- The random byte of the `Step` with this index (rules R5, R121, R176). FREE VALUE: it has no body, so
nothing can be proved of it that is not true of every stream of bytes. Log entry 1, safe. -/
opaque randByte : Nat → Byte

end Sys2Proof.Config
end

