-- ==== Sys2Proof/Machine/State.lean ====
section
/-! DEFINITION. Everything the spec gives the machine (10_state.md), as plain data, its value after reset,
and the reasons a step can stop. -/

namespace Sys2Proof.Machine

/-- Rule R19: rows 0..31 from the top, in each columns 0..63 from the left; `true` is a lit cell. -/
abbrev Display := Vector (Vector Bool 64) 32

/-- The cells of `Memory` that differ from the reset contents, addresses rising (log entry 6; the
predicate is Memory.wf in Machine/Memory.lean). -/
abbrev Cells := List Host.Cell

/-- THE MODEL'S OWN: the inputs of a `Step` (rules R5, R27, R82), held where the step function can read
them. No handler writes them. -/
structure Env where
  /-- `TICK_EN` as the environment drives it for the next `Step` (rule R74; log entry 2). -/
  tickEn : Bool
  /-- `rand` of the current `Step`, latched as it begins (rule R82; log entry 1). -/
  rand : Byte
  /-- The number of `Step`s begun: picks the next free random byte (log entry 1). -/
  stepIndex : Nat
  deriving DecidableEq, Repr

/-- The architectural state, rules R10 to R23, in the order of 10_state.md's record. -/
structure State where
  /-- `V[0]`..`V[15]`; `VF`, the flag, is `V[15]` (rules R10, R11). -/
  v : Vector Byte 16
  /-- The address register `I` (rule R12). -/
  i : Word
  /-- `PC` (rule R13). -/
  pc : Word
  /-- `SP`, in 0..16 (rule R14, 92_eei_decisions.md D29; log entry 4). -/
  sp : Fin 17
  /-- The return stack, not in memory (rules R15, R46). -/
  stack : Vector Word 16
  /-- The delay timer `DT` (rule R16). -/
  dt : Byte
  /-- The sound timer `ST` (rule R17). -/
  st : Byte
  /-- `Memory`, 4096 bytes (rules R18, R30). -/
  mem : Cells
  /-- `Disp` (rule R19). -/
  disp : Display
  /-- `KeyState`; `true` is a key held down (rule R20). -/
  keys : Vector Bool 16
  /-- `WaitInput` (rule R21). -/
  waitInput : Bool
  /-- `NeedDraw` (rule R22). -/
  needDraw : Bool
  /-- The instruction register `IR` (rule R23). -/
  ir : Word
  /-- The model's own: the inputs of a `Step`, which are not state of the core (rule R27). -/
  env : Env
  deriving DecidableEq, Repr

/-- A grid with every cell 0. -/
def blankDisplay : Display := Vector.replicate 32 (Vector.replicate 64 false)

/-- Rules R28, R190, R191: the state after `Reset` and at power-on. No memory cell differs from the reset
contents. `env` holds the default of `TICK_EN` (rule R5) and the model's own start values (log entries 1
and 2). -/
def State.reset : State where
  v := Vector.replicate 16 0
  i := 0
  pc := BitVec.ofNat 16 Config.programBase
  sp := 0
  stack := Vector.replicate 16 0
  dt := 0
  st := 0
  mem := []
  disp := blankDisplay
  keys := Vector.replicate 16 false
  waitInput := false
  needDraw := false
  ir := 0
  env := { tickEn := Config.tickEnDefault, rand := 0, stepIndex := 0 }

/-- The five fault causes of 60_exceptions.md rule R160. -/
inductive FaultCause where
  | unknownOpcode
  | stackOverflow
  | stackUnderflow
  | addressOutOfRange
  | keyIndexOutOfRange
  deriving DecidableEq, Repr

/-- Rule R160's code of a cause (92_eei_decisions.md D30; 0 is a `Step` with no fault). -/
def FaultCause.code : FaultCause → Nat
  | .unknownOpcode => 1
  | .stackOverflow => 2
  | .stackUnderflow => 3
  | .addressOutOfRange => 4
  | .keyIndexOutOfRange => 5

/-- A `Step` that ended in a fault (rules R79, R160). Each carries the state the fault leaves (rule R80):
the core does not halt, and the host may step it again from there (log entry 3). Every one is safe: the
machine reports it exactly where the spec says. -/
inductive Fault where
  /-- Raised by decode: the fetched word is no instruction (rules R57, R161). Safe. -/
  | unknownOpcode (after : State)
  /-- Raised by `2NNN` with `SP = 16` (rules R92, R162). Safe. -/
  | stackOverflow (after : State)
  /-- Raised by `00EE` with `SP = 0` (rules R90, R163). Safe. -/
  | stackUnderflow (after : State)
  /-- Raised by the fetch, `DXYN`, `FX33`, `FX55` and `FX65` when an address above 0xFFF would be
  accessed (rules R35, R164). Safe. -/
  | addressOutOfRange (after : State)
  /-- Raised by `EX9E` and `EXA1` with `VX > 15` (rules R150, R151, R165). Safe. -/
  | keyIndexOutOfRange (after : State)
  deriving DecidableEq, Repr

/-- The cause the `Step` reports. -/
def Fault.cause : Fault → FaultCause
  | .unknownOpcode _ => .unknownOpcode
  | .stackOverflow _ => .stackOverflow
  | .stackUnderflow _ => .stackUnderflow
  | .addressOutOfRange _ => .addressOutOfRange
  | .keyIndexOutOfRange _ => .keyIndexOutOfRange

/-- The state the faulting `Step` leaves (rule R80). -/
def Fault.after : Fault → State
  | .unknownOpcode s => s
  | .stackOverflow s => s
  | .stackUnderflow s => s
  | .addressOutOfRange s => s
  | .keyIndexOutOfRange s => s

/-- Why the model has no meaning for an instruction. -/
inductive Refusal where
  /-- Raised by a dispatch arm whose instruction has no meaning yet. Safe. No arm of this model does. -/
  | notModelled (mnemonic : String)
  deriving DecidableEq, Repr

/-- The outcome of a `Step` or of a handler (rule R79). -/
abbrev Result := Host.Outcome State Fault Refusal

end Sys2Proof.Machine
end

