-- ==== Sys2Proof/Machine/Memory.lean ====
section
/-! DEFINITION. The one memory (20_memory.md): its reset contents, the canonical form of the list that
holds it, reading and writing bytes. -/

namespace Sys2Proof.Machine

/-! ### The font table (70_reset_and_hazards.md rule R193; log entry 5) -/

/-- Glyphs 0 to 3, five rows each, top row first. -/
def fontGlyphs0to3 : List Byte :=
  [0xF0, 0x90, 0x90, 0x90, 0xF0] ++ [0x20, 0x60, 0x20, 0x20, 0x70] ++
  [0xF0, 0x10, 0xF0, 0x80, 0xF0] ++ [0xF0, 0x10, 0xF0, 0x10, 0xF0]

/-- Glyphs 4 to 7. -/
def fontGlyphs4to7 : List Byte :=
  [0x90, 0x90, 0xF0, 0x10, 0x10] ++ [0xF0, 0x80, 0xF0, 0x10, 0xF0] ++
  [0xF0, 0x80, 0xF0, 0x90, 0xF0] ++ [0xF0, 0x10, 0x20, 0x40, 0x40]

/-- Glyphs 8 to B. -/
def fontGlyphs8toB : List Byte :=
  [0xF0, 0x90, 0xF0, 0x90, 0xF0] ++ [0xF0, 0x90, 0xF0, 0x10, 0xF0] ++
  [0xF0, 0x90, 0xF0, 0x90, 0x90] ++ [0xE0, 0x90, 0xE0, 0x90, 0xE0]

/-- Glyphs C to F. -/
def fontGlyphsCtoF : List Byte :=
  [0xF0, 0x80, 0x80, 0x80, 0xF0] ++ [0xE0, 0x90, 0x90, 0x90, 0xE0] ++
  [0xF0, 0x80, 0xF0, 0x80, 0xF0] ++ [0xF0, 0x80, 0xF0, 0x80, 0x80]

/-- `FONT[0..79]`; glyph d stands at `5*d`. -/
def fontTable : List Byte := fontGlyphs0to3 ++ fontGlyphs4to7 ++ fontGlyphs8toB ++ fontGlyphsCtoF

/-- What an address the list does not name reads as: the reset contents (rules R18, R32, R190). -/
def resetByte (a : Nat) : Byte := fontTable.getD a 0

/-! ### The canonical form (log entry 6) -/

/-- The list names addresses from `lo` upward, strictly rising and inside the memory, and no cell that
holds its reset byte. -/
def Memory.wfFrom : Nat → Cells → Bool
  | _, [] => true
  | lo, (a, b) :: m =>
    decide (lo ≤ a) && decide (a < Config.memSize) && decide (b ≠ resetByte a) && wfFrom (a + 1) m

/-- The canonical form: equal memories are equal lists. -/
def Memory.wf (m : Cells) : Bool := Memory.wfFrom 0 m

/-! ### Bytes -/

/-- The byte at an address (rule R33, without its range check). -/
def Memory.read : Cells → Nat → Byte
  | [], a => resetByte a
  | (b, u) :: m, a => if a = b then u else Memory.read m a

/-- The memory with one byte stored (rule R34, without its range check), in canonical form. -/
def Memory.write : Cells → Nat → Byte → Cells
  | [], a, v => if v = resetByte a then [] else [(a, v)]
  | (b, u) :: m, a, v =>
    if a < b then (if v = resetByte a then (b, u) :: m else (a, v) :: (b, u) :: m)
    else if a = b then (if v = resetByte a then m else (a, v) :: m)
    else (b, u) :: Memory.write m a v

/-- The bytes at `base`, `base + 1`, ..., that many of them. -/
def Memory.readBytes (m : Cells) (base : Nat) : Nat → List Byte
  | 0 => []
  | len + 1 => Memory.read m base :: Memory.readBytes m (base + 1) len

/-- The memory with the bytes stored at `base`, `base + 1`, .... -/
def Memory.writeBytes (m : Cells) (base : Nat) : List Byte → Cells
  | [] => m
  | b :: bs => Memory.writeBytes (Memory.write m base b) (base + 1) bs

end Sys2Proof.Machine
end

