-- ==== Sys2Proof/Machine/Operands.lean ====
section
/-! DEFINITION. The operand forms of 30_encoding.md rule R53 and the effective addresses of 20_memory.md
rule R47. -/

namespace Sys2Proof.Machine

/-- The register that is also the flag (rule R11). -/
def vF : RegIdx := 15

/-- `V[x]` (rule R10). -/
def State.readV (s : State) (x : RegIdx) : Byte := s.v[x]

/-- An `nnn` operand as a value of `PC` or `I` (rule R53: zero-extended to 16 bits). -/
def absolute (nnn : Addr12) : Word := nnn.setWidth 16

/-- A byte operand as a 16-bit addend (rule R131; all values are unsigned). -/
def extendByte (b : Byte) : Word := b.setWidth 16

/-- Rule R47: `I + k` as an unbounded integer, without wrap. -/
def State.effAddr (s : State) (k : Nat) : Nat := s.i.toNat + k

/-- Rule R47: the highest of the `len` addresses from `base` is inside the memory; no access is in
range when `len` is 0. -/
def accessInRange (base len : Nat) : Bool := len == 0 || decide (base + len - 1 ≤ 0xFFF)

/-- The registers `V[0]..V[x]`, in order (rules R134, R135; `x` as a count, rule R59). -/
def State.regsUpTo (s : State) (x : RegIdx) : List Byte := s.v.toList.take (x.val + 1)

/-- A count as a register number; counts past 15 do not occur (rule R135 reads `V[k]` for k in 0..x). -/
def regNumber (k : Nat) : RegIdx := ⟨k % 16, Nat.mod_lt k (by decide)⟩

/-- A register value as a key number, none above 15 (rules R150, R151). -/
def keyIndex (b : Byte) : Option (Fin 16) := if h : b.toNat < 16 then some ⟨b.toNat, h⟩ else none

/-- Rule R132: five bytes to a glyph, no mask. -/
def glyphAddress (b : Byte) : Word := extendByte b * 5

/-- Rule R133: the hundreds, the tens and the ones of a byte. -/
def decimalDigits (b : Byte) : List Byte :=
  [BitVec.ofNat 8 (b.toNat / 100), BitVec.ofNat 8 (b.toNat / 10 % 10), BitVec.ofNat 8 (b.toNat % 10)]

end Sys2Proof.Machine
end

