-- ==== Sys2Proof/Machine/Ops.lean ====
section
/-! DEFINITION. The named operations over registers and memory, the timer tick, the fetch, and the
raising of a fault, which is the one exception mechanism of the core (60_exceptions.md rule R168; there is
no return from one, rule R169). -/

namespace Sys2Proof.Machine

/-! ### Updates of one piece of state -/

/-- `V[x] <- b`. No register is hardwired (rule R10). -/
def State.writeV (s : State) (x : RegIdx) (b : Byte) : State := { s with v := s.v.set x b }

/-- `I <- w`. -/
def State.setI (s : State) (w : Word) : State := { s with i := w }

/-- `PC <- w`. -/
def State.setPc (s : State) (w : Word) : State := { s with pc := w }

/-- `SP <- n`. -/
def State.setSp (s : State) (n : Fin 17) : State := { s with sp := n }

/-- `Stack[k] <- w`. -/
def State.setStack (s : State) (k : Fin 16) (w : Word) : State := { s with stack := s.stack.set k w }

/-- `DT <- b`. -/
def State.setDt (s : State) (b : Byte) : State := { s with dt := b }

/-- `ST <- b`. -/
def State.setSt (s : State) (b : Byte) : State := { s with st := b }

/-- The memory replaced. -/
def State.setMem (s : State) (m : Cells) : State := { s with mem := m }

/-- The display replaced. -/
def State.setDisp (s : State) (d : Display) : State := { s with disp := d }

/-- `KeyState[k] <- b`, for the host (rule R178). -/
def State.setKey (s : State) (k : Fin 16) (b : Bool) : State := { s with keys := s.keys.set k b }

/-- `WaitInput <- b`. -/
def State.setWaitInput (s : State) (b : Bool) : State := { s with waitInput := b }

/-- `NeedDraw <- b`. -/
def State.setNeedDraw (s : State) (b : Bool) : State := { s with needDraw := b }

/-- `IR <- w`. -/
def State.setIr (s : State) (w : Word) : State := { s with ir := w }

/-- The inputs replaced. -/
def State.setEnv (s : State) (e : Env) : State := { s with env := e }

/-! ### The program counter (rule R78) -/

/-- `PC <- (PC + 2) mod 65536`. -/
def State.advance (s : State) : State := s.setPc (s.pc + 2)

/-- Rule R98: `PC + 4` if the condition holds, else `PC + 2`. -/
def State.skipIf (s : State) (c : Bool) : State := s.setPc (s.pc + if c then 4 else 2)

/-! ### Faults -/

/-- Rule R168: the `Step` ends at once with the fault as its result. The state is the one the handler was
given: the tick and `IR` are kept and nothing else has changed (rule R80). No register is saved, no mode
changes and `PC` stays at the faulting instruction. -/
def raise (c : FaultCause) (s : State) : Result :=
  match c with
  | .unknownOpcode => .fault (.unknownOpcode s)
  | .stackOverflow => .fault (.stackOverflow s)
  | .stackUnderflow => .fault (.stackUnderflow s)
  | .addressOutOfRange => .fault (.addressOutOfRange s)
  | .keyIndexOutOfRange => .fault (.keyIndexOutOfRange s)

/-! ### Memory at machine level -/

/-- The byte at an address, as plain data (rule R33 past its range check). -/
def State.byteAt (s : State) (a : Nat) : Byte := Memory.read s.mem a

/-- `MemRead(addr, 1)` (rule R33): none where `AddressOutOfRange` is raised. -/
def State.memRead (s : State) (a : Nat) : Option Byte := if a > 0xFFF then none else some (s.byteAt a)

/-- The `len` bytes from `base`, none where the highest address is out of range (rule R47). -/
def State.loadBytes (s : State) (base len : Nat) : Option (List Byte) :=
  if accessInRange base len then some (Memory.readBytes s.mem base len) else none

/-- The bytes stored from `base`, none where the highest address is out of range: all addresses are
checked before the first write (rules R34, R47). -/
def State.storeBytes (s : State) (base : Nat) (bs : List Byte) : Option State :=
  if accessInRange base bs.length then some (s.setMem (Memory.writeBytes s.mem base bs)) else none

/-- `V[k] <- b` for each byte of the list, k counting up (rule R135). Bytes past `V[15]` do not occur. -/
def State.loadRegs (s : State) (k : Nat) : List Byte → State
  | [] => s
  | b :: bs => (s.writeV (regNumber k) b).loadRegs (k + 1) bs

/-! ### The return stack (rules R14, R15: post-increment push, pre-decrement pop) -/

/-- The stack with `w` pushed, none where it is full (rule R92). -/
def State.push (s : State) (w : Word) : Option State :=
  if h : s.sp.val < 16 then
    some ((s.setStack ⟨s.sp.val, h⟩ w).setSp ⟨s.sp.val + 1, Nat.succ_lt_succ h⟩)
  else none

/-- The popped entry and the stack without it, none where it is empty (rule R90). The entry is left
stale. -/
def State.pop (s : State) : Option (Word × State) :=
  match s.sp with
  | ⟨0, _⟩ => none
  | ⟨k + 1, h⟩ =>
    some (s.stack[k]'(Nat.lt_of_succ_lt_succ h), s.setSp ⟨k, Nat.lt_of_succ_lt h⟩)

/-! ### The phases of a `Step` before the handler (40_step_cycle.md) -/

/-- Rule R72: one timer's decrement, stopping at 0. -/
def tickTimer (b : Byte) : Byte := if b ≠ 0 then b - 1 else b

/-- Rule R72, sub-block `timer_decrement`: each timer on its own. -/
def State.timerTick (s : State) : State := (s.setDt (tickTimer s.dt)).setSt (tickTimer s.st)

/-- Rule R75: the word at `PC`, high byte first, none where the fetch raises `AddressOutOfRange`. -/
def State.fetchWord (s : State) : Option Word :=
  match s.memRead s.pc.toNat, s.memRead (s.pc.toNat + 1) with
  | some hi, some lo => some (wordOfBytes hi lo)
  | _, _ => none

end Sys2Proof.Machine
end

