-- ==== Sys2Proof/Machine/ControlFlow.lean ====
section
/-! DEFINITION. Control flow: `00EE 1NNN 2NNN BNNN 3XNN 4XNN 5XY0 9XY0` (41_control_flow.md). -/

namespace Sys2Proof.Machine

/-- Rule R90: the popped entry plus 2. -/
def exec00EE (s : State) : Result :=
  match s.pop with
  | none => raise .stackUnderflow s
  | some (w, t) => .next (t.setPc (w + 2))

/-- Rule R91. -/
def exec1NNN (nnn : Addr12) (s : State) : Result := .next (s.setPc (absolute nnn))

/-- Rule R92: the address of this instruction is pushed, not the one after it. -/
def exec2NNN (nnn : Addr12) (s : State) : Result :=
  match s.push s.pc with
  | none => raise .stackOverflow s
  | some t => .next (t.setPc (absolute nnn))

/-- Rule R93: the register is always `V0`. -/
def execBNNN (nnn : Addr12) (s : State) : Result :=
  .next (s.setPc (extendByte (s.readV 0) + absolute nnn))

/-- Rule R94. -/
def exec3XNN (x : RegIdx) (nn : Byte) (s : State) : Result := .next (s.skipIf (s.readV x == nn))

/-- Rule R95. -/
def exec4XNN (x : RegIdx) (nn : Byte) (s : State) : Result := .next (s.skipIf (s.readV x != nn))

/-- Rule R96. -/
def exec5XY0 (x y : RegIdx) (s : State) : Result := .next (s.skipIf (s.readV x == s.readV y))

/-- Rule R97. -/
def exec9XY0 (x y : RegIdx) (s : State) : Result := .next (s.skipIf (s.readV x != s.readV y))

end Sys2Proof.Machine
end

