-- ==== Sys2Proof/Machine/Display.lean ====
section
/-! DEFINITION. The display: `00E0 DXYN`, with the sub-blocks `framebuffer_pixel_writer` and
`sprite_collision_detector` (44_display.md). -/

namespace Sys2Proof.Machine

/-- `Disp[r][c]`. -/
def Display.cell (d : Display) (r : Fin 32) (c : Fin 64) : Bool := d[r][c]

/-- Rule R143: the display row of a sum of start row and offset, modulo 32. -/
def displayRow (a : Nat) : Fin 32 := ⟨a % 32, Nat.mod_lt a (by decide)⟩

/-- Rule R143: the display column of a sum of start column and offset, modulo 64. -/
def displayCol (a : Nat) : Fin 64 := ⟨a % 64, Nat.mod_lt a (by decide)⟩

/-- The grid while a sprite is drawn, and whether a cell has gone from 1 to 0 so far. -/
structure Canvas where
  disp : Display
  collision : Bool
  deriving DecidableEq, Repr

/-- Rule R145: the cell under a sprite bit that is 1 is inverted. -/
def framebufferPixelWriter (d : Display) (r : Fin 32) (c : Fin 64) : Display :=
  d.set r (d[r].set c (!Display.cell d r c))

/-- Rule R144: the flag stays set once a lit cell has been hit. -/
def spriteCollisionDetector (d : Display) (r : Fin 32) (c : Fin 64) (collision : Bool) : Bool :=
  collision || Display.cell d r c

/-- One sprite bit that is 1, at a cell: the detector sees the cell before the writer inverts it
(rule R141). -/
def Canvas.hit (k : Canvas) (r : Fin 32) (c : Fin 64) : Canvas where
  disp := framebufferPixelWriter k.disp r c
  collision := spriteCollisionDetector k.disp r c k.collision

/-- One sprite bit: column `col` of a sprite row `b` is bit `7 - col`; coordinates wrap (rules R142,
R143). -/
def Canvas.drawBit (k : Canvas) (vx row : Nat) (b : Byte) (col : Nat) : Canvas :=
  if b.getLsbD (7 - col) then k.hit (displayRow row) (displayCol (vx + col)) else k

/-- One sprite row: columns 0 to 7, left to right. -/
def Canvas.drawRow (k : Canvas) (vx row : Nat) (b : Byte) : Canvas :=
  (List.range 8).foldl (fun k col => k.drawBit vx row b col) k

/-- The sprite rows, the first at row `vy`, downward. -/
def Canvas.drawRows (k : Canvas) (vx vy : Nat) : List Byte → Canvas
  | [] => k
  | b :: bs => (k.drawRow vx vy b).drawRows vx (vy + 1) bs

/-- Rule R140: `VF` is not written. -/
def exec00E0 (s : State) : Result := .next ((s.setDisp blankDisplay).setNeedDraw true).advance

/-- Rule R141. `VX`, `VY` and `I` are read before `VF` is written (rule R147, 92_eei_decisions.md D11; log
entry 10); a faulting draw changes nothing. -/
def execDXYN (x y : RegIdx) (n : Nat) (s : State) : Result :=
  match s.loadBytes (s.effAddr 0) n with
  | none => raise .addressOutOfRange s
  | some rows =>
    let k := Canvas.drawRows ⟨s.disp, false⟩ (s.readV x).toNat (s.readV y).toNat rows
    .next (((s.writeV vF (flagByte k.collision)).setDisp k.disp).setNeedDraw true).advance

end Sys2Proof.Machine
end

