-- ==== Sys2Proof/Machine/IndexMemory.lean ====
section
/-! DEFINITION. The address register and memory transfer: `ANNN FX1E FX29 FX33 FX55 FX65`
(43_index_memory.md). -/

namespace Sys2Proof.Machine

/-- Rule R130. -/
def execANNN (nnn : Addr12) (s : State) : Result := .next (s.setI (absolute nnn)).advance

/-- Rule R131: modulo 65536, no flag, no mask. -/
def execFX1E (x : RegIdx) (s : State) : Result :=
  .next (s.setI (s.i + extendByte (s.readV x))).advance

/-- Rule R132: all 8 bits of `VX`. -/
def execFX29 (x : RegIdx) (s : State) : Result := .next (s.setI (glyphAddress (s.readV x))).advance

/-- The bytes stored from `I`, then `PC + 2`; `AddressOutOfRange` with nothing written where one of them
lies outside the memory (rules R47, R136). -/
def storeAtI (bs : List Byte) (s : State) : Result :=
  match s.storeBytes (s.effAddr 0) bs with
  | none => raise .addressOutOfRange s
  | some t => .next t.advance

/-- Rule R133. -/
def execFX33 (x : RegIdx) (s : State) : Result := storeAtI (decimalDigits (s.readV x)) s

/-- Rule R134: `I` is unchanged. -/
def execFX55 (x : RegIdx) (s : State) : Result := storeAtI (s.regsUpTo x) s

/-- Rule R135: `I` is unchanged. -/
def execFX65 (x : RegIdx) (s : State) : Result :=
  match s.loadBytes (s.effAddr 0) (x.val + 1) with
  | none => raise .addressOutOfRange s
  | some bs => .next (s.loadRegs 0 bs).advance

end Sys2Proof.Machine
end

