-- ==== Sys2Proof/Machine/KeypadTimers.lean ====
section
/-! DEFINITION. The keypad and the timers: `EX9E EXA1 FX0A FX07 FX15 FX18` (45_keypad_timers.md). -/

namespace Sys2Proof.Machine

/-- `KeyState[k]`. -/
def State.keyDown (s : State) (k : Fin 16) : Bool := s.keys[k]

/-- Rule R150: the key number is the value of `VX`. -/
def execEX9E (x : RegIdx) (s : State) : Result :=
  match keyIndex (s.readV x) with
  | none => raise .keyIndexOutOfRange s
  | some k => .next (s.skipIf (s.keyDown k))

/-- Rule R151. -/
def execEXA1 (x : RegIdx) (s : State) : Result :=
  match keyIndex (s.readV x) with
  | none => raise .keyIndexOutOfRange s
  | some k => .next (s.skipIf (!s.keyDown k))

/-- The lowest pressed key (rule R152, 92_eei_decisions.md D9; log entry 11). -/
def State.lowestKey (s : State) : Option (Fin 16) := (List.finRange 16).find? s.keyDown

/-- Rule R152: with no key down only `WaitInput` changes, and `PC` stays, so that the next `Step` runs
this instruction again (rule R153). -/
def execFX0A (x : RegIdx) (s : State) : Result :=
  let s1 := s.setWaitInput true
  match s1.lowestKey with
  | none => .next s1
  | some k => .next ((s1.writeV x (BitVec.ofNat 8 k.val)).setWaitInput false).advance

/-- Rule R154: the tick of this `Step` has already happened (rule R73). -/
def execFX07 (x : RegIdx) (s : State) : Result := .next (s.writeV x s.dt).advance

/-- Rule R155. -/
def execFX15 (x : RegIdx) (s : State) : Result := .next (s.setDt (s.readV x)).advance

/-- Rule R156. -/
def execFX18 (x : RegIdx) (s : State) : Result := .next (s.setSt (s.readV x)).advance

end Sys2Proof.Machine
end

