-- ==== Sys2Proof/Machine/LoadAlu.lean ====
section
/-! DEFINITION. Register load and arithmetic: `6XNN 7XNN 8XY0`..`8XY7 8XYE CXNN` (42_load_alu.md). None of
them can fault. -/

namespace Sys2Proof.Machine

/-- `V[x] <- b; PC <- PC + 2`, the shape of the instructions that write no flag. -/
def setRegister (s : State) (x : RegIdx) (b : Byte) : Result := .next (s.writeV x b).advance

/-- Rule R123 (92_eei_decisions.md D10; log entry 9): the flag first, from the registers as they stand,
then the result, from the registers as they then stand. -/
def flagThenResult (s : State) (x : RegIdx) (flag result : State → Byte) : Result :=
  let s1 := s.writeV vF (flag s)
  .next (s1.writeV x (result s1)).advance

/-- Rule R110. -/
def exec6XNN (x : RegIdx) (nn : Byte) (s : State) : Result := setRegister s x nn

/-- Rule R111: no flag. -/
def exec7XNN (x : RegIdx) (nn : Byte) (s : State) : Result := setRegister s x (s.readV x + nn)

/-- Rule R112. -/
def exec8XY0 (x y : RegIdx) (s : State) : Result := setRegister s x (s.readV y)

/-- Rule R113. -/
def exec8XY1 (x y : RegIdx) (s : State) : Result := setRegister s x (s.readV x ||| s.readV y)

/-- Rule R114. -/
def exec8XY2 (x y : RegIdx) (s : State) : Result := setRegister s x (s.readV x &&& s.readV y)

/-- Rule R115. -/
def exec8XY3 (x y : RegIdx) (s : State) : Result := setRegister s x (s.readV x ^^^ s.readV y)

/-- Rule R116. -/
def exec8XY4 (x y : RegIdx) (s : State) : Result :=
  flagThenResult s x (fun t => carryFlag (t.readV x) (t.readV y)) (fun t => t.readV x + t.readV y)

/-- Rule R117. -/
def exec8XY5 (x y : RegIdx) (s : State) : Result :=
  flagThenResult s x (fun t => noBorrowFlag (t.readV x) (t.readV y)) (fun t => t.readV x - t.readV y)

/-- Rule R118: `y` is ignored (rule R59). -/
def exec8XY6 (x _y : RegIdx) (s : State) : Result :=
  flagThenResult s x (fun t => lowBitFlag (t.readV x)) (fun t => t.readV x >>> 1)

/-- Rule R119. -/
def exec8XY7 (x y : RegIdx) (s : State) : Result :=
  flagThenResult s x (fun t => noBorrowFlag (t.readV y) (t.readV x)) (fun t => t.readV y - t.readV x)

/-- Rule R120: `y` is ignored (rule R59). -/
def exec8XYE (x _y : RegIdx) (s : State) : Result :=
  flagThenResult s x (fun t => highBitFlag (t.readV x)) (fun t => t.readV x <<< 1)

/-- Rule R121: `rand` is the input byte of this `Step` (log entry 1). -/
def execCXNN (x : RegIdx) (nn : Byte) (s : State) : Result := setRegister s x (s.env.rand &&& nn)

end Sys2Proof.Machine
end

