-- ==== Sys2Proof/Machine/Cycle.lean ====
section
/-! DEFINITION. The phases of a `Step` in their order (40_step_cycle.md rules R70, R71, R84), its two
inputs as arguments. -/

namespace Sys2Proof.Machine

/-- Rule R82: the inputs of this `Step` are sampled once, as it begins. -/
def State.latchInputs (s : State) (tickEn : Bool) (rand : Byte) : State :=
  s.setEnv { tickEn := tickEn, rand := rand, stepIndex := s.env.stepIndex + 1 }

/-- Phase 1 (rules R71, R74): the tick happens only if `TICK_EN` is 1. -/
def State.beginStep (s : State) (tickEn : Bool) (rand : Byte) : State :=
  if tickEn then (s.latchInputs tickEn rand).timerTick else s.latchInputs tickEn rand

/-- Phases 3 and 4 (rules R76, R77) on a fetched word: `UnknownOpcode`, or the one handler. -/
def decodeAndExec (w : Word) (s : State) : Result :=
  match decodeWord w with
  | .error _ => raise .unknownOpcode s
  | .ok i => exec i s

/-- Rule R84: `Step(TICK_EN, rand)`. `IR` takes the word as soon as the fetch has succeeded (rules R23,
R75). -/
def stepWith (tickEn : Bool) (rand : Byte) (s : State) : Result :=
  let s1 := s.beginStep tickEn rand
  match s1.fetchWord with
  | none => raise .addressOutOfRange s1
  | some w => decodeAndExec w (s1.setIr w)

/-- Where a program's next instruction is put: at `PC` where the fetch can read it, else at the program
base (log entry 13). -/
def State.atFetchable (s : State) : State :=
  if s.pc.toNat ≤ 0xFFE then s else s.setPc (BitVec.ofNat 16 Config.programBase)

end Sys2Proof.Machine
end

