-- ==== Sys2Proof/Machine/Step.lean ====
section
/-! DEFINITION. The step function: `Step` with `TICK_EN` as the environment drives it and the next free
random byte. -/

namespace Sys2Proof.Machine

/-- Rule R70, with the inputs taken from `env` and from the free stream of random bytes (log entries 1
and 2). -/
def step (s : State) : Host.Outcome State Fault Refusal :=
  stepWith s.env.tickEn (Config.randByte s.env.stepIndex) s

/-- `s` with the instruction whose bits are `w` (numbered as opcode_table.json numbers them) where the next
`Step` fetches. It stands for the host's `LoadROM` (log entry 13). -/
def State.withFetchWord (s : State) (nbits w : Nat) : State :=
  let t := s.atFetchable
  t.setMem (Memory.writeBytes t.mem t.pc.toNat (tableWordBytes nbits w))

end Sys2Proof.Machine
end

