-- ==== Sys2Proof/Machine/HostOps.lean ====
section
/-! DEFINITION. What the host may do to the core between two `Step`s, and what it may read
(60_exceptions.md rules R177 to R180, 70_reset_and_hazards.md rules R190 to R195). -/

namespace Sys2Proof.Machine

/-- `Reset()` (rule R190): every element of the core's state takes its reset value, whatever it was. The
inputs of a `Step` are not state (rule R27) and a reset does not restart the random source (91 N19; log
entry 14). -/
def hostReset (s : State) : State := State.reset.setEnv s.env

/-- The result of `LoadROM` (rules R194, R195). -/
inductive LoadResult where
  | ok
  | romTooLarge
  deriving DecidableEq, Repr

/-- `LoadROM(bytes)` (rule R194): byte k goes to 0x200 + k; an image of more than 3584 bytes is rejected
whole (rule R195, 92_eei_decisions.md D16). -/
def hostLoadROM (s : State) (bytes : List Byte) : State × LoadResult :=
  if bytes.length > Config.romMax then (s, .romTooLarge)
  else (s.setMem (Memory.writeBytes s.mem Config.programBase bytes), .ok)

/-- `SetKey(k, b)` (rule R178). -/
def hostSetKey (s : State) (k : Fin 16) (b : Bool) : State := s.setKey k b

/-- `AckDraw()` (rule R178). -/
def hostAckDraw (s : State) : State := s.setNeedDraw false

/-- `ClearWait()` (rule R178). -/
def hostClearWait (s : State) : State := s.setWaitInput false

/-- The environment drives `TICK_EN` for the `Step`s to come (rule R74; log entry 2). -/
def driveTickEn (s : State) (b : Bool) : State := s.setEnv { s.env with tickEn := b }

/-- What the host may read between `Step`s (rule R177). -/
structure HostView where
  disp : Display
  dt : Byte
  st : Byte
  waitInput : Bool
  needDraw : Bool
  deriving DecidableEq, Repr

/-- Rule R177. Reading changes nothing: it is a function of the state. -/
def State.hostView (s : State) : HostView :=
  { disp := s.disp, dt := s.dt, st := s.st, waitInput := s.waitInput, needDraw := s.needDraw }

/-- Rule R175: cell (r, c) as bit `r*64 + c` of one vector. -/
def State.gridBit (s : State) (k : Fin 2048) : Bool :=
  s.disp[k.val / 64][k.val % 64]

/-- The debug snapshot (rule R180): `IR`, `PC`, `SP`, `I` and the registers. -/
structure DebugSnapshot where
  opcode : Word
  pc : Word
  sp : Byte
  i : Word
  v : Vector Byte 16
  deriving DecidableEq, Repr

/-- Rule R180; `SP` as the byte it is (rule R14). -/
def State.debug (s : State) : DebugSnapshot :=
  { opcode := s.ir, pc := s.pc, sp := BitVec.ofNat 8 s.sp.val, i := s.i, v := s.v }

/-- What a caller of `Step` is given (rule R79). -/
inductive StepResult where
  | ok
  | fault (c : FaultCause)
  /-- An instruction the model refuses; no instruction of this model does. -/
  | refused
  deriving DecidableEq, Repr

/-- Rule R160's code of a result. -/
def StepResult.code : StepResult → Option Nat
  | .ok => some 0
  | .fault c => some c.code
  | .refused => none

/-- Rule R79's typing of `Step`, `State × Result`: the next state whether or not a fault is raised, so
that the host can go on from it (rules R80, R169). `before` stands for the state where there is no
next one. -/
def stateAndResult (before : State) : Result → State × StepResult
  | .next s => (s, .ok)
  | .fault f => (f.after, .fault f.cause)
  | .refused _ => (before, .refused)

/-- One move of the host (rule R178), the environment's two inputs given with the `Step`. -/
inductive HostMove where
  | step (tickEn : Bool) (rand : Byte)
  | reset
  | loadROM (bytes : List Byte)
  | setKey (k : Fin 16) (b : Bool)
  | ackDraw
  | clearWait
  deriving DecidableEq, Repr

/-- The state after one host move (rules R178, R179). -/
def applyMove (s : State) : HostMove → State
  | .step tickEn rand => (stateAndResult s (stepWith tickEn rand s)).1
  | .reset => hostReset s
  | .loadROM bytes => (hostLoadROM s bytes).1
  | .setKey k b => hostSetKey s k b
  | .ackDraw => hostAckDraw s
  | .clearWait => hostClearWait s

/-- The state after a sequence of host moves, in order (rule R179). -/
def applyMoves (s : State) : List HostMove → State
  | [] => s
  | m :: ms => applyMoves (applyMove s m) ms

end Sys2Proof.Machine
end

