-- ==== Sys2Proof/Safety.lean ====
section
/-! DEFINITION. The terms claims are stated in: the invariant, the reachable states, what a step leaves
unchanged, when an instruction faults, where it leaves `PC`, what it may write, which cells a sprite covers,
and when two states are the same to a program. -/

namespace Sys2Proof.Machine

/-! ### Invariant and reachability (10_state.md rule R29) -/

/-- The memory list is in canonical form, and every live stack entry is the address of an instruction that
was fetched (rule R29). The other bounds of rule R29 hold by type. -/
structure State.Inv (s : State) : Prop where
  memory : Memory.wf s.mem = true
  calls : ∀ k : Fin 16, k.val < s.sp.val → s.stack[k].toNat ≤ 0xFFE

/-- Rule R29: reached from reset by `Step`s, with any inputs, and host operations. -/
def Reachable (s : State) : Prop := ∃ moves : List HostMove, s = applyMoves State.reset moves

/-! ### Frames -/

/-- The pieces of the state (10_state.md; `env` is the model's own). -/
inductive Part where
  | v | i | pc | sp | stack | dt | st | mem | disp | keys | waitInput | needDraw | ir | env
  deriving DecidableEq, Repr

/-- The piece reads the same in both states; memory through the read of one byte, and as data. -/
def Part.Same : Part → State → State → Prop
  | .v, s, t => ∀ r, t.readV r = s.readV r
  | .i, s, t => t.i = s.i
  | .pc, s, t => t.pc = s.pc
  | .sp, s, t => t.sp = s.sp
  | .stack, s, t => ∀ k : Fin 16, t.stack[k] = s.stack[k]
  | .dt, s, t => t.dt = s.dt
  | .st, s, t => t.st = s.st
  | .mem, s, t => t.mem = s.mem ∧ ∀ a, t.byteAt a = s.byteAt a
  | .disp, s, t => ∀ r c, t.disp.cell r c = s.disp.cell r c
  | .keys, s, t => ∀ k, t.keyDown k = s.keyDown k
  | .waitInput, s, t => t.waitInput = s.waitInput
  | .needDraw, s, t => t.needDraw = s.needDraw
  | .ir, s, t => t.ir = s.ir
  | .env, s, t => t.env = s.env

/-- Every piece but the named ones is unchanged from `s` to `t`. -/
def ChangesOnly (parts : List Part) (s t : State) : Prop := ∀ p, p ∉ parts → p.Same s t

/-- Every register but the named ones is unchanged from `s` to `t`. -/
def ChangesOnlyRegs (regs : List RegIdx) (s t : State) : Prop :=
  ∀ r, r ∉ regs → t.readV r = s.readV r

/-- Every byte of memory but the `len` bytes from `base` reads in `t` as in `s`. -/
def ChangesOnlyBytes (base len : Nat) (s t : State) : Prop :=
  ∀ a, ¬ (base ≤ a ∧ a < base + len) → t.byteAt a = s.byteAt a

/-- `PC` has moved on by `k`, modulo 65536 (rule R78). -/
def PcAdvances (k : Nat) (s t : State) : Prop := t.pc.toNat = (s.pc.toNat + k) % 65536

/-- Whether some key is down. -/
def State.SomeKeyDown (s : State) : Prop := ∃ k, s.keyDown k = true

end Sys2Proof.Machine

/-! ### Whole-machine tables -/

namespace Sys2Proof

open Sys2Proof.Machine

/-- Rule R160's table of the handlers' fault conditions (rule R167: at most one each). -/
def Instr.faultIn (i : Instr) (s : State) : Option FaultCause :=
  match i with
  | .op00EE => if s.sp.val = 0 then some .stackUnderflow else none
  | .op2NNN _ => if s.sp.val = 16 then some .stackOverflow else none
  | .opDXYN _ _ n => if n > 0 ∧ s.i.toNat + n - 1 > 0xFFF then some .addressOutOfRange else none
  | .opFX33 _ => if s.i.toNat + 2 > 0xFFF then some .addressOutOfRange else none
  | .opFX55 x | .opFX65 x => if s.i.toNat + x.val > 0xFFF then some .addressOutOfRange else none
  | .opEX9E x | .opEXA1 x => if (s.readV x).toNat > 15 then some .keyIndexOutOfRange else none
  | .op00E0 | .op1NNN _ | .opANNN _ | .opBNNN _ | .op3XNN _ _ | .op4XNN _ _ | .op6XNN _ _
  | .op7XNN _ _ | .opCXNN _ _ | .op5XY0 _ _ | .op9XY0 _ _ | .op8XY0 _ _ | .op8XY1 _ _ | .op8XY2 _ _
  | .op8XY3 _ _ | .op8XY4 _ _ | .op8XY5 _ _ | .op8XY6 _ _ | .op8XY7 _ _ | .op8XYE _ _ | .opFX07 _
  | .opFX15 _ | .opFX18 _ | .opFX0A _ | .opFX1E _ | .opFX29 _ => none

/-- Rule R78's table: the `PC` an instruction leaves is `n`, before the reduction modulo 65536. -/
def Instr.LeavesPc (i : Instr) (s : State) (n : Nat) : Prop :=
  match i with
  | .op00EE => ∃ k : Fin 16, k.val + 1 = s.sp.val ∧ n = s.stack[k].toNat + 2
  | .op1NNN nnn | .op2NNN nnn => n = nnn.toNat
  | .opBNNN nnn => n = (s.readV 0).toNat + nnn.toNat
  | .op3XNN x nn => n = s.pc.toNat + (if s.readV x = nn then 4 else 2)
  | .op4XNN x nn => n = s.pc.toNat + (if s.readV x ≠ nn then 4 else 2)
  | .op5XY0 x y => n = s.pc.toNat + (if s.readV x = s.readV y then 4 else 2)
  | .op9XY0 x y => n = s.pc.toNat + (if s.readV x ≠ s.readV y then 4 else 2)
  | .opEX9E x =>
    ∃ k : Fin 16, k.val = (s.readV x).toNat ∧ n = s.pc.toNat + (if s.keyDown k = true then 4 else 2)
  | .opEXA1 x =>
    ∃ k : Fin 16, k.val = (s.readV x).toNat ∧ n = s.pc.toNat + (if s.keyDown k = false then 4 else 2)
  | .opFX0A _ => (s.SomeKeyDown ∧ n = s.pc.toNat + 2) ∨ (¬ s.SomeKeyDown ∧ n = s.pc.toNat)
  | .op00E0 | .opANNN _ | .op6XNN _ _ | .op7XNN _ _ | .opCXNN _ _ | .op8XY0 _ _ | .op8XY1 _ _
  | .op8XY2 _ _ | .op8XY3 _ _ | .op8XY4 _ _ | .op8XY5 _ _ | .op8XY6 _ _ | .op8XY7 _ _ | .op8XYE _ _
  | .opDXYN _ _ _ | .opFX07 _ | .opFX15 _ | .opFX18 _ | .opFX1E _ | .opFX29 _ | .opFX33 _
  | .opFX55 _ | .opFX65 _ => n = s.pc.toNat + 2

/-- Which pieces of the state an instruction may write (10_state.md rules R10 to R23). -/
def Instr.writes : Instr → List Part
  | .op00E0 => [.disp, .needDraw, .pc]
  | .op00EE => [.sp, .pc]
  | .op2NNN _ => [.stack, .sp, .pc]
  | .op1NNN _ | .opBNNN _ | .op3XNN _ _ | .op4XNN _ _ | .op5XY0 _ _ | .op9XY0 _ _ | .opEX9E _
  | .opEXA1 _ => [.pc]
  | .op6XNN _ _ | .op7XNN _ _ | .opCXNN _ _ | .op8XY0 _ _ | .op8XY1 _ _ | .op8XY2 _ _ | .op8XY3 _ _
  | .op8XY4 _ _ | .op8XY5 _ _ | .op8XY6 _ _ | .op8XY7 _ _ | .op8XYE _ _ | .opFX07 _ | .opFX65 _ =>
    [.v, .pc]
  | .opANNN _ | .opFX1E _ | .opFX29 _ => [.i, .pc]
  | .opDXYN _ _ _ => [.v, .disp, .needDraw, .pc]
  | .opFX15 _ => [.dt, .pc]
  | .opFX18 _ => [.st, .pc]
  | .opFX0A _ => [.v, .waitInput, .pc]
  | .opFX33 _ | .opFX55 _ => [.mem, .pc]

/-- Which registers an instruction may write (rules R10, R11). -/
def Instr.writesReg (i : Instr) (r : RegIdx) : Prop :=
  match i with
  | .op6XNN x _ | .op7XNN x _ | .opCXNN x _ | .op8XY0 x _ | .op8XY1 x _ | .op8XY2 x _ | .op8XY3 x _
  | .opFX07 x | .opFX0A x => r = x
  | .op8XY4 x _ | .op8XY5 x _ | .op8XY6 x _ | .op8XY7 x _ | .op8XYE x _ => r = x ∨ r = vF
  | .opDXYN _ _ _ => r = vF
  | .opFX65 x => r.val ≤ x.val
  | .op00E0 | .op00EE | .op1NNN _ | .op2NNN _ | .opANNN _ | .opBNNN _ | .op3XNN _ _ | .op4XNN _ _
  | .op5XY0 _ _ | .op9XY0 _ _ | .opEX9E _ | .opEXA1 _ | .opFX15 _ | .opFX18 _ | .opFX1E _ | .opFX29 _
  | .opFX33 _ | .opFX55 _ => False

end Sys2Proof

namespace Sys2Proof.Machine

/-! ### Sprites -/

/-- Rules R142, R143: an `n`-row sprite at `I`, drawn at (`VX`, `VY`), covers the display cell (r, c) with a
1: sprite position (j, k) is bit `7 - k` of the byte at `I + j` and lands on row `(VY + j) mod 32`, column
`(VX + k) mod 64`. -/
def SpriteCovers (s : State) (x y : RegIdx) (n : Nat) (r : Fin 32) (c : Fin 64) : Prop :=
  ∃ j k, j < n ∧ k < 8 ∧ r.val = ((s.readV y).toNat + j) % 32 ∧ c.val = ((s.readV x).toNat + k) % 64 ∧
    (s.byteAt (s.effAddr j)).getLsbD (7 - k) = true

/-! ### What a program can tell apart -/

/-- The two states differ at most in what no instruction reads: `WaitInput`, `NeedDraw`, `IR` and the stale
stack entries (rules R21, R22, R23, R24). -/
structure SameToProgram (s t : State) : Prop where
  regs : ∀ r, t.readV r = s.readV r
  i : t.i = s.i
  pc : t.pc = s.pc
  sp : t.sp = s.sp
  live : ∀ k : Fin 16, k.val < s.sp.val → t.stack[k] = s.stack[k]
  dt : t.dt = s.dt
  st : t.st = s.st
  mem : t.mem = s.mem
  disp : t.disp = s.disp
  keys : t.keys = s.keys
  env : t.env = s.env

/-- Two outcomes of a step a program cannot tell apart: both go on, to states that are the same to it, or
both raise the same fault. -/
def SameOutcome : Result → Result → Prop
  | .next s, .next t => SameToProgram s t
  | .fault f, .fault g => f.cause = g.cause ∧ SameToProgram f.after g.after
  | _, _ => False

/-- The word at `PC` is in memory and decodes to this instruction. -/
structure State.AboutToRun (s : State) (i : Instr) : Prop where
  inMemory : s.pc.toNat ≤ 0xFFE
  decodes : decodeWord (wordOfBytes (s.byteAt s.pc.toNat) (s.byteAt (s.pc.toNat + 1))) = .ok i

/-- What a `Step` with this `TICK_EN` makes of a timer before the instruction runs (rules R72, R74). -/
def tickedBy (tickEn : Bool) (b : Byte) : Nat := if tickEn then b.toNat - 1 else b.toNat

end Sys2Proof.Machine
end

