-- ==== Sys2Proof/Certificates/Slice0/Obligations.lean ====
section
/-! DEFINITION. The statements about the machine, for the provers. `ChangesOnly`, `ChangesOnlyRegs`,
`ChangesOnlyBytes`, `PcAdvances`, `SpriteCovers` and the tables `faultIn`, `LeavesPc`, `writes`, `writesReg`
are in Safety.lean. Where a docstring says "the spec's decision D<n>", the clause rests on a choice the spec
marks as its own (92_eei_decisions.md). -/

open Sys2Proof Sys2Proof.Machine

/-! ### Encoding -/

/-- Words written out from 30_encoding.md section 5, its opcode map and 95_test_vectors.md 2.1. -/
def Obligations.WrittenWordsDecode : Prop :=
  decodeWord 0x6A18#16 = .ok (.op6XNN 0xA 0x18#8) ∧
  decodeWord 0x1200#16 = .ok (.op1NNN 0x200#12) ∧
  decodeWord 0x00EE#16 = .ok .op00EE ∧
  decodeWord 0x812E#16 = .ok (.op8XYE 1 2) ∧
  decodeWord 0xD12F#16 = .ok (.opDXYN 1 2 15) ∧
  decodeWord 0xEF9E#16 = .ok (.opEX9E 15) ∧
  decodeWord 0xF165#16 = .ok (.opFX65 1) ∧
  decodeWord 0x01E0#16 = .error (.unknownOpcode 0x01E0#16) ∧
  decodeWord 0x512F#16 = .error (.unknownOpcode 0x512F#16) ∧
  decodeWord 0xF175#16 = .error (.unknownOpcode 0xF175#16)

/-- Decoding the bytes of a well-formed instruction gives it back, with every operand, and leaves the bytes
after it (30_encoding.md sections 1 and 4). -/
def Obligations.DecodeAfterEncode : Prop :=
  ∀ (i : Instr) (rest : List Byte), i.WellFormed →
    decodeBytes (encodeBytes i ++ rest) = .ok (i, rest)

/-- A word that decodes is the encoding of what it decodes to, and that is well-formed: no bit of a word is
dropped. -/
def Obligations.EncodeAfterDecode : Prop :=
  ∀ (w : Word) (i : Instr), decodeWord w = .ok i → i.WellFormed ∧ encode i = w

/-- Strict matching (30_encoding.md section 2; the spec's decision D5): a word is an instruction exactly if
it matches a row of the opcode map, it matches at most one, and it is that row's instruction; every other
word is refused by name. -/
def Obligations.WordsMatchOneRowOrNone : Prop :=
  ∀ w : Word,
    ((∃ i, decodeWord w = .ok i) ↔ ∃ r ∈ opcodeTable, r.Matches w) ∧
    (∀ r ∈ opcodeTable, ∀ r' ∈ opcodeTable, r.Matches w → r'.Matches w → r = r') ∧
    (∀ i, decodeWord w = .ok i → i.row ∈ opcodeTable ∧ i.row.Matches w) ∧
    ((¬ ∃ r ∈ opcodeTable, r.Matches w) → decodeWord w = .error (.unknownOpcode w))

/-! ### The `Step` -/

/-- A `Step` whose word decodes to an instruction is that instruction's handler, run on the state after the
tick and the fetch (40_step_cycle.md section 5): only the timers, `IR` and the inputs have changed. The step
function is that `Step` with the inputs `env` gives (log entries 1 and 2). -/
def Obligations.StepRunsTheDecodedInstruction : Prop :=
  (∀ (tickEn : Bool) (rand : Byte) (s : State) (i : Instr), s.AboutToRun i →
    ∃ u, stepWith tickEn rand s = exec i u ∧ ChangesOnly [.dt, .st, .ir, .env] s u ∧
      u.dt.toNat = tickedBy tickEn s.dt ∧ u.st.toNat = tickedBy tickEn s.st ∧
      u.ir = wordOfBytes (s.byteAt s.pc.toNat) (s.byteAt (s.pc.toNat + 1)) ∧ u.env.rand = rand) ∧
  (∀ s : State, step s = stepWith s.env.tickEn (Config.randByte s.env.stepIndex) s)

/-- The model's interface for placing an instruction (log entry 13): the encoded word is read back, and
placed at `PC` it is the instruction the next step runs, the bytes at `PC` and the tick and fetch apart on
the same state. -/
def Obligations.PlacedWordRuns : Prop :=
  ∀ (s : State) (i : Instr), s.Inv → i.WellFormed → s.pc.toNat ≤ 0xFFE →
    decodeTableWord 16 (encode i).toNat = some i ∧
    ∃ u, step (s.withFetchWord 16 (encode i).toNat) = exec i u ∧ u.ir = encode i ∧
      ChangesOnly [.mem, .dt, .st, .ir, .env] s u ∧ ChangesOnlyBytes s.pc.toNat 2 s u

/-- Rule R72: the tick takes 1 from each timer that is not 0, each on its own, and touches nothing else. -/
def Obligations.TimerTickDecrementsEachTimer : Prop :=
  ∀ s : State,
    (s.dt ≠ 0 → s.timerTick.dt.toNat + 1 = s.dt.toNat) ∧ (s.dt = 0 → s.timerTick.dt = 0) ∧
    (s.st ≠ 0 → s.timerTick.st.toNat + 1 = s.st.toNat) ∧ (s.st = 0 → s.timerTick.st = 0) ∧
    ChangesOnly [.dt, .st] s s.timerTick

/-- Rule R73: in a `Step` with a tick the timers lose 1 before the instruction runs, once, whatever the
instruction and whether or not it faults or waits; `FX07` reads the decremented value; `FX15` and `FX18`
overwrite it; a value set by `FX15` is read 1 lower by an `FX07` in the very next `Step`. -/
def Obligations.TickComesBeforeTheInstruction : Prop :=
  ∀ (rand : Byte) (s : State),
    (∀ t, stepWith true rand s = .next t → (∀ x, ¬ s.AboutToRun (.opFX15 x)) →
      t.dt.toNat = s.dt.toNat - 1) ∧
    (∀ t, stepWith true rand s = .next t → (∀ x, ¬ s.AboutToRun (.opFX18 x)) →
      t.st.toNat = s.st.toNat - 1) ∧
    (∀ f, stepWith true rand s = .fault f →
      f.after.dt.toNat = s.dt.toNat - 1 ∧ f.after.st.toNat = s.st.toNat - 1) ∧
    (∀ x, s.AboutToRun (.opFX0A x) → (∀ k, s.keyDown k = false) →
      ∃ t, stepWith true rand s = .next t ∧ t.dt.toNat = s.dt.toNat - 1 ∧ t.st.toNat = s.st.toNat - 1) ∧
    (∀ x, s.AboutToRun (.opFX07 x) →
      ∃ t, stepWith true rand s = .next t ∧ (t.readV x).toNat = s.dt.toNat - 1) ∧
    (∀ x, s.AboutToRun (.opFX15 x) → ∃ t, stepWith true rand s = .next t ∧ t.dt = s.readV x) ∧
    (∀ x, s.AboutToRun (.opFX18 x) → ∃ t, stepWith true rand s = .next t ∧ t.st = s.readV x) ∧
    (∀ x y rand' t, s.AboutToRun (.opFX15 x) → stepWith true rand s = .next t →
      t.AboutToRun (.opFX07 y) →
      ∃ u, stepWith true rand' t = .next u ∧ (u.readV y).toNat = (s.readV x).toNat - 1)

/-- A `Step` with `TICK_EN = 0` leaves both timers to the instruction alone (40_step_cycle.md section 2; the
spec's decision D2). -/
def Obligations.NoTickWithoutEnable : Prop :=
  ∀ (rand : Byte) (s : State),
    (∀ t, stepWith false rand s = .next t → (∀ x, ¬ s.AboutToRun (.opFX15 x)) → t.dt = s.dt) ∧
    (∀ t, stepWith false rand s = .next t → (∀ x, ¬ s.AboutToRun (.opFX18 x)) → t.st = s.st) ∧
    (∀ f, stepWith false rand s = .fault f → f.after.dt = s.dt ∧ f.after.st = s.st)

/-- A fetch past 0xFFE raises `AddressOutOfRange`; the tick is kept and `IR` keeps its old value
(40_step_cycle.md sections 3 and 5; the spec's decisions D3 and D12). -/
def Obligations.FetchPastMemoryFaults : Prop :=
  ∀ (tickEn : Bool) (rand : Byte) (s : State), 0xFFE < s.pc.toNat →
    ∃ f, stepWith tickEn rand s = .fault f ∧ f.cause = .addressOutOfRange ∧
      f.after.dt.toNat = tickedBy tickEn s.dt ∧ f.after.st.toNat = tickedBy tickEn s.st ∧
      ChangesOnly [.dt, .st, .env] s f.after

/-- A word that matches no row of the opcode map raises `UnknownOpcode`; `PC` stays and `IR` holds the word
(30_encoding.md section 2; the spec's decisions D4, D5 and D12). -/
def Obligations.UnknownWordFaults : Prop :=
  ∀ (tickEn : Bool) (rand : Byte) (s : State) (w : Word), s.pc.toNat ≤ 0xFFE →
    w = wordOfBytes (s.byteAt s.pc.toNat) (s.byteAt (s.pc.toNat + 1)) →
    (¬ ∃ r ∈ opcodeTable, r.Matches w) →
    ∃ f, stepWith tickEn rand s = .fault f ∧ f.cause = .unknownOpcode ∧ f.after.ir = w ∧
      f.after.dt.toNat = tickedBy tickEn s.dt ∧ f.after.st.toNat = tickedBy tickEn s.st ∧
      ChangesOnly [.dt, .st, .ir, .env] s f.after

/-- The state a faulting `Step` leaves, whatever faulted: the tick is kept, `IR` holds the word if the fetch
succeeded, and nothing else has changed (40_step_cycle.md section 5; the spec's decision D12). -/
def Obligations.FaultingStepIsPrecise : Prop :=
  ∀ (tickEn : Bool) (rand : Byte) (s : State) (f : Fault), stepWith tickEn rand s = .fault f →
    ChangesOnly [.dt, .st, .ir, .env] s f.after ∧
    f.after.dt.toNat = tickedBy tickEn s.dt ∧ f.after.st.toNat = tickedBy tickEn s.st ∧
    (0xFFE < s.pc.toNat → f.after.ir = s.ir) ∧
    (s.pc.toNat ≤ 0xFFE → f.after.ir = wordOfBytes (s.byteAt s.pc.toNat) (s.byteAt (s.pc.toNat + 1)))

/-- A host that ignores a fault and steps again gets the same fault (60_exceptions.md section 1,
40_step_cycle.md section 5; the spec's decision D12). -/
def Obligations.FaultRepeats : Prop :=
  ∀ (tickEn tickEn' : Bool) (rand rand' : Byte) (s : State) (f : Fault),
    stepWith tickEn rand s = .fault f →
    ∃ g, stepWith tickEn' rand' f.after = .fault g ∧ g.cause = f.cause

/-- For every instruction and state: the handler completes unless its own fault condition holds, and then it
raises that fault with nothing changed (60_exceptions.md section 1, the fault table and the priority among
faults; the spec's decisions D3, D6, D7, D8, D20). -/
def Obligations.InstructionCompletesOrFaults : Prop :=
  ∀ (i : Instr) (s : State),
    (i.faultIn s = none → ∃ t, exec i s = .next t) ∧
    (∀ c, i.faultIn s = some c → ∃ f, exec i s = .fault f ∧ f.cause = c ∧ f.after = s)

/-- Every `Step` goes on or raises one of the five faults; none is refused (60_exceptions.md section 1). -/
def Obligations.StepNeverRefused : Prop :=
  ∀ (tickEn : Bool) (rand : Byte) (s : State),
    (∃ t, stepWith tickEn rand s = .next t) ∨ (∃ f, stepWith tickEn rand s = .fault f)

/-- Rule R78, its table: the `PC` every instruction leaves, in every state; a `Step` that faults leaves `PC` as
it was. -/
def Obligations.InstructionLeavesPc : Prop :=
  (∀ (i : Instr) (s t : State), exec i s = .next t → ∃ n, i.LeavesPc s n ∧ t.pc.toNat = n % 65536) ∧
  (∀ (tickEn : Bool) (rand : Byte) (s : State) (f : Fault), stepWith tickEn rand s = .fault f →
    f.after.pc = s.pc)

/-- Every instruction changes only the pieces of the state it is said to write (10_state.md, the writers of
each piece); in particular no instruction writes `KeyState`, `IR` or the inputs. -/
def Obligations.OnlyItsOwnPiecesChange : Prop :=
  ∀ (i : Instr) (s t : State), exec i s = .next t → ChangesOnly i.writes s t

/-- Every instruction changes only the registers it is said to write, `VF` included (10_state.md section 1). -/
def Obligations.OnlyItsOwnRegistersChange : Prop :=
  ∀ (i : Instr) (s t : State), exec i s = .next t → ∀ r, ¬ i.writesReg r → t.readV r = s.readV r

/-! ### Invariants -/

/-- The reset state meets the invariant: no live stack entry is above 0xFFE (10_state.md section 6), and the
memory list is in canonical form, which is the model's own choice of how to hold memory (log entry 6). -/
def Obligations.ResetMeetsInvariant : Prop := State.reset.Inv

/-- Every step keeps the invariant, whether it goes on or faults: no live stack entry is above 0xFFE
(10_state.md section 6), and the memory list stays in canonical form, which is the model's own choice of how to
hold memory (log entry 6). -/
def Obligations.StepKeepsInvariant : Prop :=
  ∀ s : State, s.Inv →
    (∀ t, step s = .next t → t.Inv) ∧ (∀ f, step s = .fault f → f.after.Inv)

/-- In every state reached from reset by `Step`s, with any inputs, and host operations, in any order, no live
stack entry is above 0xFFE and `SP` is at most 16 (10_state.md section 6; the second holds by the model's type of
`SP`, log entry 4), and the memory list is in canonical form, the model's own choice (log entry 6). The lemma for
one move is EveryMoveKeepsInvariant. -/
def Obligations.ReachableStatesMeetInvariant : Prop :=
  ∀ s : State, Reachable s →
    s.sp.val ≤ 16 ∧ Memory.wf s.mem = true ∧ ∀ k : Fin 16, k.val < s.sp.val → s.stack[k].toNat ≤ 0xFFE

/-! ### Register load and arithmetic -/

/-- Rules R110, R111: the encoding, the register, no flag, `PC + 2`, no fault. -/
def Obligations.LoadAndAddImmediate : Prop :=
  ∀ (x : RegIdx) (nn : Byte) (s : State),
    decodeWord (0x6#4 ++ nibble x ++ nn) = .ok (.op6XNN x nn) ∧
    decodeWord (0x7#4 ++ nibble x ++ nn) = .ok (.op7XNN x nn) ∧
    (∃ t, exec (.op6XNN x nn) s = .next t ∧ t.readV x = nn ∧
      ChangesOnlyRegs [x] s t ∧ PcAdvances 2 s t ∧ ChangesOnly [.v, .pc] s t) ∧
    (∃ t, exec (.op7XNN x nn) s = .next t ∧
      (t.readV x).toNat = ((s.readV x).toNat + nn.toNat) % 256 ∧
      ChangesOnlyRegs [x] s t ∧ PcAdvances 2 s t ∧ ChangesOnly [.v, .pc] s t)

/-- Rules R112 to R115: the encoding, the register bit by bit, no flag, `PC + 2`, no fault. -/
def Obligations.CopyAndLogic : Prop :=
  ∀ (x y : RegIdx) (s : State),
    decodeWord (0x8#4 ++ nibble x ++ nibble y ++ 0x0#4) = .ok (.op8XY0 x y) ∧
    decodeWord (0x8#4 ++ nibble x ++ nibble y ++ 0x1#4) = .ok (.op8XY1 x y) ∧
    decodeWord (0x8#4 ++ nibble x ++ nibble y ++ 0x2#4) = .ok (.op8XY2 x y) ∧
    decodeWord (0x8#4 ++ nibble x ++ nibble y ++ 0x3#4) = .ok (.op8XY3 x y) ∧
    (∃ t, exec (.op8XY0 x y) s = .next t ∧ t.readV x = s.readV y ∧
      ChangesOnlyRegs [x] s t ∧ PcAdvances 2 s t ∧ ChangesOnly [.v, .pc] s t) ∧
    (∃ t, exec (.op8XY1 x y) s = .next t ∧
      (∀ k, k < 8 → (t.readV x).getLsbD k = ((s.readV x).getLsbD k || (s.readV y).getLsbD k)) ∧
      ChangesOnlyRegs [x] s t ∧ PcAdvances 2 s t ∧ ChangesOnly [.v, .pc] s t) ∧
    (∃ t, exec (.op8XY2 x y) s = .next t ∧
      (∀ k, k < 8 → (t.readV x).getLsbD k = ((s.readV x).getLsbD k && (s.readV y).getLsbD k)) ∧
      ChangesOnlyRegs [x] s t ∧ PcAdvances 2 s t ∧ ChangesOnly [.v, .pc] s t) ∧
    (∃ t, exec (.op8XY3 x y) s = .next t ∧
      (∀ k, k < 8 → (t.readV x).getLsbD k = ((s.readV x).getLsbD k ^^ (s.readV y).getLsbD k)) ∧
      ChangesOnlyRegs [x] s t ∧ PcAdvances 2 s t ∧ ChangesOnly [.v, .pc] s t)

/-- `CXNN` masks the input byte of the `Step`, whatever it is (42_load_alu.md section 5; the spec's decision
D13; log entry 1): as a handler, and in a `Step` with any `rand`. -/
def Obligations.RandomByteIsMasked : Prop :=
  ∀ (x : RegIdx) (nn : Byte) (s : State),
    (∃ t, exec (.opCXNN x nn) s = .next t ∧
      (∀ k, k < 8 → (t.readV x).getLsbD k = (s.env.rand.getLsbD k && nn.getLsbD k)) ∧
      ChangesOnlyRegs [x] s t ∧ PcAdvances 2 s t ∧ ChangesOnly [.v, .pc] s t) ∧
    (∀ tickEn rand, s.AboutToRun (.opCXNN x nn) →
      ∃ t, stepWith tickEn rand s = .next t ∧
        ∀ k, k < 8 → (t.readV x).getLsbD k = (rand.getLsbD k && nn.getLsbD k))

/-- `8XY4` (42_load_alu.md section 4). The clauses with `VF` as an operand rest on the spec's decision D10
(log entry 9). -/
def Obligations.AddSetsCarry : Prop :=
  ∀ (x y : RegIdx) (s : State) (a b c : Nat), a = (s.readV x).toNat → b = (s.readV y).toNat →
    c = (if a + b > 255 then 1 else 0) →
    ∃ t, exec (.op8XY4 x y) s = .next t ∧
      (x ≠ vF → y ≠ vF → (t.readV x).toNat = (a + b) % 256 ∧ (t.readV vF).toNat = c) ∧
      (x = vF → y ≠ vF → (t.readV vF).toNat = (c + b) % 256) ∧
      (x ≠ vF → y = vF → (t.readV vF).toNat = c ∧ (t.readV x).toNat = (a + c) % 256) ∧
      (x = vF → y = vF → (t.readV vF).toNat = if a ≥ 128 then 2 else 0) ∧
      ChangesOnlyRegs [x, vF] s t ∧ PcAdvances 2 s t ∧ ChangesOnly [.v, .pc] s t

/-- `8XY5` (42_load_alu.md section 4). The clauses with `VF` as an operand rest on the spec's decision D10
(log entry 9). -/
def Obligations.SubtractSetsNoBorrow : Prop :=
  ∀ (x y : RegIdx) (s : State) (a b f : Nat), a = (s.readV x).toNat → b = (s.readV y).toNat →
    f = (if b > a then 0 else 1) →
    ∃ t, exec (.op8XY5 x y) s = .next t ∧
      (x ≠ vF → y ≠ vF → (t.readV x).toNat = (a + 256 - b) % 256 ∧ (t.readV vF).toNat = f) ∧
      (x = vF → y ≠ vF → (t.readV vF).toNat = (f + 256 - b) % 256) ∧
      (x ≠ vF → y = vF → (t.readV vF).toNat = f ∧ (t.readV x).toNat = (a + 256 - f) % 256) ∧
      (x = vF → y = vF → (t.readV vF).toNat = 0) ∧
      ChangesOnlyRegs [x, vF] s t ∧ PcAdvances 2 s t ∧ ChangesOnly [.v, .pc] s t

/-- `8XY7` (42_load_alu.md section 4). The clauses with `VF` as an operand rest on the spec's decision D10
(log entry 9). -/
def Obligations.ReverseSubtractSetsNoBorrow : Prop :=
  ∀ (x y : RegIdx) (s : State) (a b f : Nat), a = (s.readV x).toNat → b = (s.readV y).toNat →
    f = (if a > b then 0 else 1) →
    ∃ t, exec (.op8XY7 x y) s = .next t ∧
      (x ≠ vF → y ≠ vF → (t.readV x).toNat = (b + 256 - a) % 256 ∧ (t.readV vF).toNat = f) ∧
      (x = vF → y ≠ vF → (t.readV vF).toNat = (b + 256 - f) % 256) ∧
      (x ≠ vF → y = vF → (t.readV vF).toNat = f ∧ (t.readV x).toNat = (f + 256 - a) % 256) ∧
      (x = vF → y = vF → (t.readV vF).toNat = 0) ∧
      ChangesOnlyRegs [x, vF] s t ∧ PcAdvances 2 s t ∧ ChangesOnly [.v, .pc] s t

/-- `8XY6` and `8XYE`, whatever `y` (42_load_alu.md section 4). The clauses with `x = 15` rest on the spec's
decision D10 (log entry 9). -/
def Obligations.ShiftsSetDroppedBit : Prop :=
  ∀ (x y : RegIdx) (s : State) (a : Nat), a = (s.readV x).toNat →
    (∃ t, exec (.op8XY6 x y) s = .next t ∧
      (x ≠ vF → (t.readV x).toNat = a / 2 ∧ (t.readV vF).toNat = a % 2) ∧
      (x = vF → (t.readV vF).toNat = 0) ∧
      ChangesOnlyRegs [x, vF] s t ∧ PcAdvances 2 s t ∧ ChangesOnly [.v, .pc] s t) ∧
    (∃ t, exec (.op8XYE x y) s = .next t ∧
      (x ≠ vF → (t.readV x).toNat = a * 2 % 256 ∧ (t.readV vF).toNat = a / 128) ∧
      (x = vF → (t.readV vF).toNat = if a ≥ 128 then 2 else 0) ∧
      ChangesOnlyRegs [x, vF] s t ∧ PcAdvances 2 s t ∧ ChangesOnly [.v, .pc] s t)

/-! ### Control flow -/

/-- Rules R94 and R95, and the same for `5XY0` and `9XY0` (41_control_flow.md section 3): the encoding,
`PC + 4` if the condition holds and `PC + 2` if not, and nothing else. -/
def Obligations.RegisterSkips : Prop :=
  ∀ (x y : RegIdx) (nn : Byte) (s : State),
    decodeWord (0x3#4 ++ nibble x ++ nn) = .ok (.op3XNN x nn) ∧
    decodeWord (0x4#4 ++ nibble x ++ nn) = .ok (.op4XNN x nn) ∧
    decodeWord (0x5#4 ++ nibble x ++ nibble y ++ 0x0#4) = .ok (.op5XY0 x y) ∧
    decodeWord (0x9#4 ++ nibble x ++ nibble y ++ 0x0#4) = .ok (.op9XY0 x y) ∧
    (∃ t, exec (.op3XNN x nn) s = .next t ∧ ChangesOnly [.pc] s t ∧
      PcAdvances (if (s.readV x).toNat = nn.toNat then 4 else 2) s t) ∧
    (∃ t, exec (.op4XNN x nn) s = .next t ∧ ChangesOnly [.pc] s t ∧
      PcAdvances (if (s.readV x).toNat = nn.toNat then 2 else 4) s t) ∧
    (∃ t, exec (.op5XY0 x y) s = .next t ∧ ChangesOnly [.pc] s t ∧
      PcAdvances (if (s.readV x).toNat = (s.readV y).toNat then 4 else 2) s t) ∧
    (∃ t, exec (.op9XY0 x y) s = .next t ∧ ChangesOnly [.pc] s t ∧
      PcAdvances (if (s.readV x).toNat = (s.readV y).toNat then 2 else 4) s t)

/-- Rules R91, R93: the encoding; the target is the address, or `V0` plus the address without reduction to 12
bits; nothing else changes, so a jump to itself leaves the very same state; the next fetch faults where the
target is above 0xFFE. -/
def Obligations.JumpsSetPc : Prop :=
  ∀ (nnn : Addr12) (s : State),
    decodeWord (0x1#4 ++ nnn) = .ok (.op1NNN nnn) ∧ decodeWord (0xB#4 ++ nnn) = .ok (.opBNNN nnn) ∧
    (∃ t, exec (.op1NNN nnn) s = .next t ∧ t.pc.toNat = nnn.toNat ∧ ChangesOnly [.pc] s t ∧
      (s.pc.toNat = nnn.toNat → t = s) ∧
      (0xFFE < nnn.toNat → ∀ tickEn rand, ∃ f, stepWith tickEn rand t = .fault f ∧
        f.cause = .addressOutOfRange)) ∧
    (∃ t, exec (.opBNNN nnn) s = .next t ∧ t.pc.toNat = (s.readV 0).toNat + nnn.toNat ∧
      ChangesOnly [.pc] s t ∧
      (0xFFE < (s.readV 0).toNat + nnn.toNat → ∀ tickEn rand, ∃ f, stepWith tickEn rand t = .fault f ∧
        f.cause = .addressOutOfRange))

/-- `2NNN` (41_control_flow.md section 1): the address of the call itself is pushed. The fault on a full
stack is the spec's decision D6. -/
def Obligations.CallPushesItsOwnAddress : Prop :=
  ∀ (nnn : Addr12) (s : State),
    (∀ k : Fin 16, k.val = s.sp.val →
      ∃ t, exec (.op2NNN nnn) s = .next t ∧ t.stack[k] = s.pc ∧
        (∀ j : Fin 16, j ≠ k → t.stack[j] = s.stack[j]) ∧ t.sp.val = s.sp.val + 1 ∧
        t.pc.toNat = nnn.toNat ∧ ChangesOnly [.stack, .sp, .pc] s t) ∧
    (s.sp.val = 16 →
      ∃ f, exec (.op2NNN nnn) s = .fault f ∧ f.cause = .stackOverflow ∧ f.after = s)

/-- `00EE` (41_control_flow.md section 1): the popped entry plus 2, the entry left stale. The fault on an
empty stack is the spec's decision D7. -/
def Obligations.ReturnResumesAfterCall : Prop :=
  ∀ s : State,
    (∀ k : Fin 16, k.val + 1 = s.sp.val →
      ∃ t, exec .op00EE s = .next t ∧ t.pc.toNat = (s.stack[k].toNat + 2) % 65536 ∧
        t.sp.val = k.val ∧ ChangesOnly [.sp, .pc] s t) ∧
    (s.sp.val = 0 → ∃ f, exec .op00EE s = .fault f ∧ f.cause = .stackUnderflow ∧ f.after = s)

/-- A call and the return that matches it (41_control_flow.md section 1, "Call then return"): the return runs
in any state whose stack is as the call left it, and resumes at the call's address plus 2. -/
def Obligations.CallThenReturn : Prop :=
  ∀ (nnn : Addr12) (s t u : State), exec (.op2NNN nnn) s = .next t → u.sp = t.sp →
    (∀ k : Fin 16, k.val < t.sp.val → u.stack[k] = t.stack[k]) →
    ∃ w, exec .op00EE u = .next w ∧ w.pc.toNat = (s.pc.toNat + 2) % 65536 ∧ w.sp = s.sp ∧
      ChangesOnly [.sp, .pc] u w

/-! ### The address register and memory -/

/-- Rules R130, R131: the encoding, `I`, no flag, no mask, `PC + 2`, no fault. -/
def Obligations.LoadAndAddIndex : Prop :=
  ∀ (nnn : Addr12) (x : RegIdx) (s : State),
    decodeWord (0xA#4 ++ nnn) = .ok (.opANNN nnn) ∧
    decodeWord (0xF#4 ++ nibble x ++ 0x1E#8) = .ok (.opFX1E x) ∧
    (∃ t, exec (.opANNN nnn) s = .next t ∧ t.i.toNat = nnn.toNat ∧ PcAdvances 2 s t ∧
      ChangesOnly [.i, .pc] s t) ∧
    (∃ t, exec (.opFX1E x) s = .next t ∧ t.i.toNat = (s.i.toNat + (s.readV x).toNat) % 65536 ∧
      PcAdvances 2 s t ∧ ChangesOnly [.i, .pc] s t)

/-- `FX29` (43_index_memory.md section 1): all 8 bits of `VX` times 5, the spec's decision D19. -/
def Obligations.GlyphAddressIsFiveTimes : Prop :=
  ∀ (x : RegIdx) (s : State),
    ∃ t, exec (.opFX29 x) s = .next t ∧ t.i.toNat = (s.readV x).toNat * 5 ∧ PcAdvances 2 s t ∧
      ChangesOnly [.i, .pc] s t

/-- `FX33` (43_index_memory.md section 2): hundreds, tens and ones at `I`, `I + 1`, `I + 2`, every other byte
unchanged. The fault out of range is the spec's decisions D3 and D20. -/
def Obligations.DecimalDigitsStored : Prop :=
  ∀ (x : RegIdx) (s : State),
    (Memory.wf s.mem = true → s.i.toNat + 2 ≤ 0xFFF →
      ∃ t, exec (.opFX33 x) s = .next t ∧
        (t.byteAt (s.effAddr 0)).toNat = (s.readV x).toNat / 100 ∧
        (t.byteAt (s.effAddr 1)).toNat = (s.readV x).toNat / 10 % 10 ∧
        (t.byteAt (s.effAddr 2)).toNat = (s.readV x).toNat % 10 ∧
        ChangesOnlyBytes (s.effAddr 0) 3 s t ∧ PcAdvances 2 s t ∧ ChangesOnly [.mem, .pc] s t) ∧
    (0xFFF < s.i.toNat + 2 →
      ∃ f, exec (.opFX33 x) s = .fault f ∧ f.cause = .addressOutOfRange ∧ f.after = s)

/-- `FX55` (43_index_memory.md section 2): `V0..VX` at `I..I + x`, every other byte unchanged, `I` unchanged.
The fault out of range is the spec's decisions D3 and D20. -/
def Obligations.RegistersStored : Prop :=
  ∀ (x : RegIdx) (s : State),
    (Memory.wf s.mem = true → s.i.toNat + x.val ≤ 0xFFF →
      ∃ t, exec (.opFX55 x) s = .next t ∧
        (∀ r : RegIdx, r.val ≤ x.val → t.byteAt (s.effAddr r.val) = s.readV r) ∧
        ChangesOnlyBytes (s.effAddr 0) (x.val + 1) s t ∧ PcAdvances 2 s t ∧
        ChangesOnly [.mem, .pc] s t) ∧
    (0xFFF < s.i.toNat + x.val →
      ∃ f, exec (.opFX55 x) s = .fault f ∧ f.cause = .addressOutOfRange ∧ f.after = s)

/-- `FX65` (43_index_memory.md section 2): `V0..VX` from `I..I + x`, every other register and all memory
unchanged, `I` unchanged. The fault out of range is the spec's decisions D3 and D20. -/
def Obligations.RegistersLoaded : Prop :=
  ∀ (x : RegIdx) (s : State),
    (s.i.toNat + x.val ≤ 0xFFF →
      ∃ t, exec (.opFX65 x) s = .next t ∧
        (∀ r : RegIdx, r.val ≤ x.val → t.readV r = s.byteAt (s.effAddr r.val)) ∧
        (∀ r : RegIdx, x.val < r.val → t.readV r = s.readV r) ∧ PcAdvances 2 s t ∧
        ChangesOnly [.v, .pc] s t) ∧
    (0xFFF < s.i.toNat + x.val →
      ∃ f, exec (.opFX65 x) s = .fault f ∧ f.cause = .addressOutOfRange ∧ f.after = s)

/-- The round trip of 43_index_memory.md section 2 and 95_test_vectors.md S5: whatever the registers hold in
between, `FX65` with the same `I` and `x` reads back what `FX55` stored. -/
def Obligations.StoreThenLoadRoundTrip : Prop :=
  ∀ (x : RegIdx) (s t u : State), Memory.wf s.mem = true → exec (.opFX55 x) s = .next t →
    u.mem = t.mem → u.i = t.i →
    ∃ w, exec (.opFX65 x) u = .next w ∧
      (∀ r : RegIdx, r.val ≤ x.val → w.readV r = s.readV r) ∧
      (∀ r : RegIdx, x.val < r.val → w.readV r = u.readV r)

/-- A store is seen by the very next fetch (20_memory.md section 5): when an `FX55` writes over the
instruction after it, the next `Step` runs what was written. -/
def Obligations.StoredWordIsFetchedNext : Prop :=
  ∀ (tickEn tickEn' : Bool) (rand rand' : Byte) (x : RegIdx) (s t : State) (i : Instr), s.Inv →
    s.AboutToRun (.opFX55 x) → s.i.toNat = s.pc.toNat + 2 → 1 ≤ x.val →
    decodeWord (wordOfBytes (s.readV 0) (s.readV 1)) = .ok i →
    stepWith tickEn rand s = .next t →
    ∃ u, stepWith tickEn' rand' t = exec i u ∧ u.ir = wordOfBytes (s.readV 0) (s.readV 1) ∧
      u.pc.toNat = s.pc.toNat + 2

/-! ### The display -/

/-- Rule R140: the encoding, every cell 0 whatever it was, `NeedDraw`, `PC + 2`, `VF` untouched, no fault. -/
def Obligations.ClearDisplayBlanks : Prop :=
  decodeWord 0x00E0#16 = .ok .op00E0 ∧
  ∀ s : State,
    ∃ t, exec .op00E0 s = .next t ∧ (∀ r c, t.disp.cell r c = false) ∧ t.needDraw = true ∧
      PcAdvances 2 s t ∧ ChangesOnly [.disp, .needDraw, .pc] s t

/-- The writer of a draw (44_display.md section 2): a draw whose access is in range completes, and inverts
exactly the cells a sprite bit 1 lands on, coordinates wrapping pixel by pixel. Where `x` or `y` is 15 the
coordinate is the one `VF` held before the draw wrote it, the spec's decision D11 (log entry 10). -/
def Obligations.DrawInvertsCoveredCells : Prop :=
  ∀ (x y : RegIdx) (n : Nat) (s : State), n < 16 → (n = 0 ∨ s.i.toNat + n - 1 ≤ 0xFFF) →
    ∃ t, exec (.opDXYN x y n) s = .next t ∧
      ∀ r c, (SpriteCovers s x y n r c → t.disp.cell r c = !s.disp.cell r c) ∧
        (¬ SpriteCovers s x y n r c → t.disp.cell r c = s.disp.cell r c)

/-- The detector and the frame of a draw (44_display.md section 2): `VF` is 1 exactly if a cell that was lit is
covered by a 1, else 0, also where `x` or `y` is 15; no other register changes. That `VF` is 0 without a
collision is the spec's decision D11 (log entry 10). -/
def Obligations.DrawSetsCollision : Prop :=
  ∀ (x y : RegIdx) (n : Nat) (s : State), n < 16 → (n = 0 ∨ s.i.toNat + n - 1 ≤ 0xFFF) →
    ∃ t, exec (.opDXYN x y n) s = .next t ∧
      ((∃ r c, SpriteCovers s x y n r c ∧ s.disp.cell r c = true) → t.readV vF = 1) ∧
      ((¬ ∃ r c, SpriteCovers s x y n r c ∧ s.disp.cell r c = true) → t.readV vF = 0) ∧
      ChangesOnlyRegs [vF] s t ∧ t.needDraw = true ∧ PcAdvances 2 s t ∧
      ChangesOnly [.v, .disp, .needDraw, .pc] s t

/-- A draw that would read past 0xFFF faults and changes nothing; every other draw completes; with no rows that
is so whatever `I`, and the grid stays as it is (44_display.md section 2, 20_memory.md section 4; the fault is the
spec's decisions D3 and D20, the value 0 of `VF` its decision D11, log entries 7 and 10). -/
def Obligations.DrawFaultsOnlyPastMemory : Prop :=
  ∀ (x y : RegIdx) (n : Nat) (s : State),
    (0 < n → 0xFFF < s.i.toNat + n - 1 →
      ∃ f, exec (.opDXYN x y n) s = .fault f ∧ f.cause = .addressOutOfRange ∧ f.after = s) ∧
    (0 < n → s.i.toNat + n - 1 ≤ 0xFFF → ∃ t, exec (.opDXYN x y n) s = .next t) ∧
    (∃ t, exec (.opDXYN x y 0) s = .next t ∧ t.readV vF = 0 ∧ t.needDraw = true ∧
      ChangesOnlyRegs [vF] s t ∧ PcAdvances 2 s t ∧ ChangesOnly [.v, .needDraw, .pc] s t)

/-- Drawing the same sprite twice at the same place restores the grid; the second draw reports a collision
exactly if the first has lit a cell (44_display.md section 2; log entry 15 on the closing remark of R145). `x`
and `y` are not 15, or the first draw would move the second. -/
def Obligations.DrawTwiceRestores : Prop :=
  ∀ (x y : RegIdx) (n : Nat) (s t : State), n < 16 → x ≠ vF → y ≠ vF →
    exec (.opDXYN x y n) s = .next t →
    ∃ u, exec (.opDXYN x y n) t = .next u ∧ (∀ r c, u.disp.cell r c = s.disp.cell r c) ∧
      ((∃ r c, SpriteCovers s x y n r c ∧ s.disp.cell r c = false) → u.readV vF = 1) ∧
      ((¬ ∃ r c, SpriteCovers s x y n r c ∧ s.disp.cell r c = false) → u.readV vF = 0)

/-- Rule R146: both display instructions set `NeedDraw` when they complete, whether or not a cell changed; no
`Step` clears it, whether it goes on or faults; a draw that faults does not set it; the host clears it. -/
def Obligations.NeedDrawIsSticky : Prop :=
  (∀ s t : State, exec .op00E0 s = .next t → t.needDraw = true) ∧
  (∀ x y n, ∀ s t : State, exec (.opDXYN x y n) s = .next t → t.needDraw = true) ∧
  (∀ tickEn rand, ∀ s : State, s.needDraw = true →
    (∀ t, stepWith tickEn rand s = .next t → t.needDraw = true) ∧
    (∀ f, stepWith tickEn rand s = .fault f → f.after.needDraw = true)) ∧
  (∀ x y n s f, exec (.opDXYN x y n) s = .fault f → f.after.needDraw = s.needDraw) ∧
  (∀ s : State, (hostAckDraw s).needDraw = false)

/-! ### Keys and timers -/

/-- `EX9E` and `EXA1` (45_keypad_timers.md section 1). The fault on an index above 15 is the spec's decision
D8. -/
def Obligations.KeySkips : Prop :=
  ∀ (x : RegIdx) (s : State),
    (∀ k : Fin 16, (s.readV x).toNat = k.val →
      (∃ t, exec (.opEX9E x) s = .next t ∧ ChangesOnly [.pc] s t ∧
        PcAdvances (if s.keyDown k = true then 4 else 2) s t) ∧
      (∃ t, exec (.opEXA1 x) s = .next t ∧ ChangesOnly [.pc] s t ∧
        PcAdvances (if s.keyDown k = true then 2 else 4) s t)) ∧
    ((s.readV x).toNat > 15 →
      (∃ f, exec (.opEX9E x) s = .fault f ∧ f.cause = .keyIndexOutOfRange ∧ f.after = s) ∧
      (∃ f, exec (.opEXA1 x) s = .fault f ∧ f.cause = .keyIndexOutOfRange ∧ f.after = s))

/-- `FX0A` (45_keypad_timers.md section 2): with no key down only `WaitInput` changes, to 1; with keys down
`VX` takes the lowest, the spec's decision D9 (log entry 11), and `PC` moves on. -/
def Obligations.WaitTakesLowestKey : Prop :=
  ∀ (x : RegIdx) (s : State),
    ((∀ k, s.keyDown k = false) →
      ∃ t, exec (.opFX0A x) s = .next t ∧ t.waitInput = true ∧ ChangesOnly [.waitInput] s t) ∧
    (∀ k, s.keyDown k = true → (∀ j, j < k → s.keyDown j = false) →
      ∃ t, exec (.opFX0A x) s = .next t ∧ (t.readV x).toNat = k.val ∧ t.waitInput = false ∧
        ChangesOnlyRegs [x] s t ∧ PcAdvances 2 s t ∧ ChangesOnly [.v, .waitInput, .pc] s t)

/-- The wait is the repetition of `Step`s (45_keypad_timers.md section 2, 40_step_cycle.md section 5): with no
key down, any number of steps leaves `PC` and everything else but the timers, `WaitInput` and `IR` as it was,
while the timers keep running down. Between the steps the host does nothing and `TICK_EN` stays as driven (log
entry 2). -/
def Obligations.KeyWaitRepeats : Prop :=
  ∀ (x : RegIdx) (s : State) (n : Nat), s.AboutToRun (.opFX0A x) → (∀ k, s.keyDown k = false) →
    ∃ t : State, Host.Core.run Sys2Proof.core n s = .next t ∧
      ChangesOnly [.dt, .st, .waitInput, .ir, .env] s t ∧ (0 < n → t.waitInput = true) ∧
      (s.env.tickEn = true → t.dt.toNat = s.dt.toNat - n ∧ t.st.toNat = s.st.toNat - n) ∧
      (s.env.tickEn = false → t.dt = s.dt ∧ t.st = s.st)

/-- Rule R154, and the same for `FX15` and `FX18` (45_keypad_timers.md section 3): the encoding; the handler on
the state it is given; and in a `Step`, where the tick has already happened: `FX07` reads the decremented
value, a written timer holds `VX` at the end. -/
def Obligations.TimerAccess : Prop :=
  ∀ (x : RegIdx) (s : State),
    decodeWord (0xF#4 ++ nibble x ++ 0x07#8) = .ok (.opFX07 x) ∧
    decodeWord (0xF#4 ++ nibble x ++ 0x15#8) = .ok (.opFX15 x) ∧
    decodeWord (0xF#4 ++ nibble x ++ 0x18#8) = .ok (.opFX18 x) ∧
    (∃ t, exec (.opFX07 x) s = .next t ∧ t.readV x = s.dt ∧ ChangesOnlyRegs [x] s t ∧
      PcAdvances 2 s t ∧ ChangesOnly [.v, .pc] s t) ∧
    (∃ t, exec (.opFX15 x) s = .next t ∧ t.dt = s.readV x ∧ PcAdvances 2 s t ∧
      ChangesOnly [.dt, .pc] s t) ∧
    (∃ t, exec (.opFX18 x) s = .next t ∧ t.st = s.readV x ∧ PcAdvances 2 s t ∧
      ChangesOnly [.st, .pc] s t) ∧
    (∀ tickEn rand,
      (s.AboutToRun (.opFX07 x) → ∃ t, stepWith tickEn rand s = .next t ∧
        (t.readV x).toNat = tickedBy tickEn s.dt ∧ t.dt.toNat = tickedBy tickEn s.dt) ∧
      (s.AboutToRun (.opFX15 x) → ∃ t, stepWith tickEn rand s = .next t ∧ t.dt = s.readV x ∧
        t.st.toNat = tickedBy tickEn s.st) ∧
      (s.AboutToRun (.opFX18 x) → ∃ t, stepWith tickEn rand s = .next t ∧ t.st = s.readV x ∧
        t.dt.toNat = tickedBy tickEn s.dt))

/-! ### What a program cannot see -/

/-- `WaitInput`, `NeedDraw`, `IR` and the stale stack entries never influence execution (10_state.md section
5): two states that differ in nothing else step to outcomes that differ in nothing else. -/
def Obligations.OutputsNeverInfluenceExecution : Prop :=
  ∀ s t : State, SameToProgram s t → SameOutcome (step s) (step t)

/-! ### Reset and the host -/

/-- The reset values of 10_state.md section 6, of every piece of the core's state, all 16 glyphs of the font
table written out. The font bytes are the spec's decision D24, from general knowledge (log entry 5); `IR` is its
decision D15. -/
def Obligations.ResetLeavesStatedValues : Prop :=
  (∀ r, State.reset.readV r = 0) ∧ State.reset.i = 0 ∧ State.reset.pc.toNat = 0x200 ∧
  State.reset.sp = 0 ∧ (∀ k : Fin 16, State.reset.stack[k] = 0) ∧ State.reset.dt = 0 ∧
  State.reset.st = 0 ∧
  Memory.readBytes State.reset.mem 0x000 20 =
    [0xF0, 0x90, 0x90, 0x90, 0xF0, 0x20, 0x60, 0x20, 0x20, 0x70,
     0xF0, 0x10, 0xF0, 0x80, 0xF0, 0xF0, 0x10, 0xF0, 0x10, 0xF0] ∧
  Memory.readBytes State.reset.mem 0x014 20 =
    [0x90, 0x90, 0xF0, 0x10, 0x10, 0xF0, 0x80, 0xF0, 0x10, 0xF0,
     0xF0, 0x80, 0xF0, 0x90, 0xF0, 0xF0, 0x10, 0x20, 0x40, 0x40] ∧
  Memory.readBytes State.reset.mem 0x028 20 =
    [0xF0, 0x90, 0xF0, 0x90, 0xF0, 0xF0, 0x90, 0xF0, 0x10, 0xF0,
     0xF0, 0x90, 0xF0, 0x90, 0x90, 0xE0, 0x90, 0xE0, 0x90, 0xE0] ∧
  Memory.readBytes State.reset.mem 0x03C 20 =
    [0xF0, 0x80, 0x80, 0x80, 0xF0, 0xE0, 0x90, 0x90, 0x90, 0xE0,
     0xF0, 0x80, 0xF0, 0x80, 0xF0, 0xF0, 0x80, 0xF0, 0x80, 0x80] ∧
  (∀ a, 0x050 ≤ a → State.reset.byteAt a = 0) ∧ (∀ r c, State.reset.disp.cell r c = false) ∧
  (∀ k, State.reset.keyDown k = false) ∧ State.reset.waitInput = false ∧
  State.reset.needDraw = false ∧ State.reset.ir = 0

/-- `Reset` gives the reset state from any state (70_reset_and_hazards.md section 1); the inputs of a `Step`,
which are not state of the core, are left alone (log entry 14). -/
def Obligations.HostResetRestoresResetState : Prop :=
  ∀ s : State, ChangesOnly [.env] State.reset (hostReset s) ∧ (hostReset s).env = s.env

/-- Rule R194: an image of at most 3584 bytes is copied to 0x200 and onward and nothing else changes; a larger
one is rejected with nothing written. -/
def Obligations.LoadROMCopiesImage : Prop :=
  ∀ (s : State) (bytes : List Byte), Memory.wf s.mem = true →
    (bytes.length ≤ 3584 →
      ∃ t, hostLoadROM s bytes = (t, .ok) ∧
        (∀ k (h : k < bytes.length), t.byteAt (0x200 + k) = bytes[k]) ∧
        ChangesOnlyBytes 0x200 bytes.length s t ∧ ChangesOnly [.mem] s t) ∧
    (3584 < bytes.length → hostLoadROM s bytes = (s, .romTooLarge))

/-- `SetKey`, `AckDraw` and `ClearWait` (60_exceptions.md section 5; the spec's decision D26). -/
def Obligations.HostKeyAndFlagOperations : Prop :=
  ∀ s : State,
    (∀ k b, (hostSetKey s k b).keyDown k = b ∧
      (∀ j, j ≠ k → (hostSetKey s k b).keyDown j = s.keyDown j) ∧
      ChangesOnly [.keys] s (hostSetKey s k b)) ∧
    ((hostAckDraw s).needDraw = false ∧ ChangesOnly [.needDraw] s (hostAckDraw s)) ∧
    ((hostClearWait s).waitInput = false ∧ ChangesOnly [.waitInput] s (hostClearWait s))

/-- After `Reset` with no `LoadROM`, every `Step`, the first and any later one, with any inputs, returns
`UnknownOpcode` with `PC` at 0x200 and the whole state of the core as `Reset` left it (70_reset_and_hazards.md
section 2; the fault is the spec's decision D4, log entry 8). -/
def Obligations.NoProgramFaults : Prop :=
  ∀ (s : State) (earlier : List (Bool × Byte)) (tickEn : Bool) (rand : Byte),
    ∃ f, stepWith tickEn rand (applyMoves (hostReset s) (earlier.map fun p => .step p.1 p.2)) = .fault f ∧
      f.cause = .unknownOpcode ∧ f.after.pc.toNat = 0x200 ∧ ChangesOnly [.env] (hostReset s) f.after

/-- The boot sequence (70_reset_and_hazards.md section 2): after `Reset` and `LoadROM`, the first `Step` runs
the first word of the image, at 0x200, with every register 0 and an empty stack. -/
def Obligations.FirstInstructionAfterBoot : Prop :=
  ∀ (tickEn : Bool) (rand : Byte) (s : State) (hi lo : Byte) (rest : List Byte) (i : Instr),
    rest.length + 2 ≤ 3584 → decodeWord (wordOfBytes hi lo) = .ok i →
    ∃ t u, hostLoadROM (hostReset s) (hi :: lo :: rest) = (t, .ok) ∧
      stepWith tickEn rand t = exec i u ∧ u.pc.toNat = 0x200 ∧ u.sp = 0 ∧ u.i = 0 ∧
      u.ir = wordOfBytes hi lo ∧ (∀ r, u.readV r = 0)

/-- The grid as one vector (60_exceptions.md section 4; the spec's decision D14). -/
def Obligations.HostSeesTheGrid : Prop :=
  ∀ (s : State) (r : Fin 32) (c : Fin 64) (k : Fin 2048), k.val = r.val * 64 + c.val →
    s.gridBit k = s.disp.cell r c ∧ s.hostView.disp.cell r c = s.disp.cell r c

/-! ### The invariant over every move -/

/-- Every move, a `Step` with any inputs, faulting or not, or a host operation, keeps the invariant from every
state that meets it, reachable or not: no live stack entry above 0xFFE (10_state.md section 6), the memory list in
canonical form, the model's own choice (log entry 6). -/
def Obligations.EveryMoveKeepsInvariant : Prop :=
  ∀ (s : State) (m : HostMove), s.Inv → (applyMove s m).Inv
end

