-- ==== Sys2Proof/Laws/Decode.lean ====
section
/-! SUPPORT. The fields of an encoded word are the operands it was made of, and a word is made of its
fields (rules R51, R52). -/

namespace Sys2Proof

/-! ### Words as numbers -/

theorem append_toNat {m n : Nat} (a : BitVec m) (b : BitVec n) :
    (a ++ b).toNat = a.toNat * 2 ^ n + b.toNat := by
  rw [BitVec.toNat_append, Nat.shiftLeft_eq, Nat.mul_comm, Nat.two_pow_add_eq_or_of_lt b.isLt, Nat.mul_comm]

theorem formatNNN_toNat (op : BitVec 4) (nnn : Addr12) :
    (formatNNN op nnn).toNat = op.toNat * 4096 + nnn.toNat :=
  append_toNat op nnn

@[simp] theorem nibble_toNat (x : RegIdx) : (nibble x).toNat = x.val := rfl

theorem formatXNN_toNat (op : BitVec 4) (x : RegIdx) (kk : Byte) :
    (formatXNN op x kk).toNat = op.toNat * 4096 + x.val * 256 + kk.toNat := by
  refine (append_toNat (op ++ nibble x) kk).trans ?_
  rw [append_toNat, nibble_toNat]
  omega

theorem formatXYN_toNat (op : BitVec 4) (x y : RegIdx) (n : BitVec 4) :
    (formatXYN op x y n).toNat = op.toNat * 4096 + x.val * 256 + y.val * 16 + n.toNat := by
  refine (append_toNat (op ++ nibble x ++ nibble y) n).trans ?_
  rw [append_toNat, append_toNat, nibble_toNat, nibble_toNat]
  omega

theorem fieldOp_eq (w : Word) : fieldOp w = w.toNat / 4096 := by
  have := w.isLt
  simp [fieldOp, BitVec.extractLsb'_toNat, Nat.shiftRight_eq_div_pow]
  omega

theorem fieldX_val (w : Word) : (fieldX w).val = w.toNat / 256 % 16 := by
  simp [fieldX, Nat.shiftRight_eq_div_pow]

theorem fieldY_val (w : Word) : (fieldY w).val = w.toNat / 16 % 16 := by
  simp [fieldY, Nat.shiftRight_eq_div_pow]

theorem fieldN_eq (w : Word) : fieldN w = w.toNat % 16 := by
  simp [fieldN, BitVec.extractLsb'_toNat]

theorem fieldNN_toNat (w : Word) : (fieldNN w).toNat = w.toNat % 256 := by
  simp [fieldNN, BitVec.extractLsb'_toNat]

theorem fieldNNN_toNat (w : Word) : (fieldNNN w).toNat = w.toNat % 4096 := by
  simp [fieldNNN, BitVec.extractLsb'_toNat]

/-! ### Fields of an encoded word -/

@[simp] theorem fieldOp_formatNNN (op : BitVec 4) (nnn : Addr12) : fieldOp (formatNNN op nnn) = op.toNat := by
  have := nnn.isLt
  rw [fieldOp_eq, formatNNN_toNat]
  omega

@[simp] theorem fieldNNN_formatNNN (op : BitVec 4) (nnn : Addr12) : fieldNNN (formatNNN op nnn) = nnn := by
  have := nnn.isLt
  apply BitVec.eq_of_toNat_eq
  rw [fieldNNN_toNat, formatNNN_toNat]
  omega

@[simp] theorem fieldOp_formatXNN (op : BitVec 4) (x : RegIdx) (kk : Byte) :
    fieldOp (formatXNN op x kk) = op.toNat := by
  have := kk.isLt
  have := x.isLt
  rw [fieldOp_eq, formatXNN_toNat]
  omega

@[simp] theorem fieldX_formatXNN (op : BitVec 4) (x : RegIdx) (kk : Byte) :
    fieldX (formatXNN op x kk) = x := by
  have := kk.isLt
  have := x.isLt
  apply Fin.ext
  rw [fieldX_val, formatXNN_toNat]
  omega

@[simp] theorem fieldNN_formatXNN (op : BitVec 4) (x : RegIdx) (kk : Byte) :
    fieldNN (formatXNN op x kk) = kk := by
  have := kk.isLt
  apply BitVec.eq_of_toNat_eq
  rw [fieldNN_toNat, formatXNN_toNat]
  omega

@[simp] theorem fieldOp_formatXYN (op : BitVec 4) (x y : RegIdx) (n : BitVec 4) :
    fieldOp (formatXYN op x y n) = op.toNat := by
  have := n.isLt
  have := x.isLt
  have := y.isLt
  rw [fieldOp_eq, formatXYN_toNat]
  omega

@[simp] theorem fieldX_formatXYN (op : BitVec 4) (x y : RegIdx) (n : BitVec 4) :
    fieldX (formatXYN op x y n) = x := by
  have := n.isLt
  have := x.isLt
  have := y.isLt
  apply Fin.ext
  rw [fieldX_val, formatXYN_toNat]
  omega

@[simp] theorem fieldY_formatXYN (op : BitVec 4) (x y : RegIdx) (n : BitVec 4) :
    fieldY (formatXYN op x y n) = y := by
  have := n.isLt
  have := y.isLt
  apply Fin.ext
  rw [fieldY_val, formatXYN_toNat]
  omega

@[simp] theorem fieldN_formatXYN (op : BitVec 4) (x y : RegIdx) (n : BitVec 4) :
    fieldN (formatXYN op x y n) = n.toNat := by
  have := n.isLt
  rw [fieldN_eq, formatXYN_toNat]
  omega

/-! ### A word is made of its fields -/

theorem eq_formatNNN (w : Word) {op : BitVec 4} (h : fieldOp w = op.toNat) :
    formatNNN op (fieldNNN w) = w := by
  apply BitVec.eq_of_toNat_eq
  rw [formatNNN_toNat, fieldNNN_toNat, ← h, fieldOp_eq]
  omega

theorem eq_formatXNN (w : Word) {op : BitVec 4} {kk : Byte} (h : fieldOp w = op.toNat)
    (hk : (fieldNN w).toNat = kk.toNat) : formatXNN op (fieldX w) kk = w := by
  apply BitVec.eq_of_toNat_eq
  rw [formatXNN_toNat, fieldX_val, ← hk, fieldNN_toNat, ← h, fieldOp_eq]
  omega

theorem eq_formatXYN (w : Word) {op n : BitVec 4} (h : fieldOp w = op.toNat) (hn : fieldN w = n.toNat) :
    formatXYN op (fieldX w) (fieldY w) n = w := by
  apply BitVec.eq_of_toNat_eq
  rw [formatXYN_toNat, fieldX_val, fieldY_val, ← hn, fieldN_eq, ← h, fieldOp_eq]
  omega

theorem fieldN_lt (w : Word) : fieldN w < 16 := by
  rw [fieldN_eq]
  omega

/-! ### Bytes (rule R36) -/

/-- The two bytes of a word make the word again. -/
theorem wordOfBytes_bytes (w : Word) : wordOfBytes (w.extractLsb' 8 8) (w.extractLsb' 0 8) = w := by
  have := w.isLt
  apply BitVec.eq_of_toNat_eq
  simp only [wordOfBytes, append_toNat, BitVec.extractLsb'_toNat, Nat.shiftRight_eq_div_pow]
  omega

@[simp] theorem length_bytesOfWord (w : Word) : (bytesOfWord w).length = 2 := rfl

/-- Decoding the bytes of a word is decoding the word. -/
theorem decodeBytes_bytesOfWord (w : Word) (rest : List Byte) :
    decodeBytes (bytesOfWord w ++ rest) =
      match decodeWord w with
      | .ok i => .ok (i, rest)
      | .error e => .error e := by
  cases h : decodeWord w <;> simp [bytesOfWord, decodeBytes, wordOfBytes_bytes, h]

/-! ### Masks as conditions on fields (rule R56) -/

/-- Every word in format `XYN`. -/
theorem word_eq_formatXYN (w : Word) :
    formatXYN (BitVec.ofNat 4 (fieldOp w)) (fieldX w) (fieldY w) (BitVec.ofNat 4 (fieldN w)) = w := by
  have h1 : fieldOp w < 16 := by have := w.isLt; rw [fieldOp_eq]; omega
  have h2 := fieldN_lt w
  apply eq_formatXYN
  · simp only [BitVec.toNat_ofNat]; omega
  · simp only [BitVec.toNat_ofNat]; omega

theorem formatNNN_and_F000 (op : BitVec 4) (nnn : Addr12) :
    formatNNN op nnn &&& 0xF000#16 = formatNNN op 0 := by
  refine (BitVec.and_append (x₁ := op) (y₁ := nnn) (x₂ := 0xF#4) (y₂ := 0#12)).trans ?_
  rw [show (0xF#4) = BitVec.allOnes 4 from rfl, BitVec.and_allOnes, BitVec.and_zero]
  rfl

theorem formatXNN_and_F000 (op : BitVec 4) (x : RegIdx) (kk : Byte) :
    formatXNN op x kk &&& 0xF000#16 = formatXNN op 0 0 := by
  refine (BitVec.and_append (x₁ := op ++ nibble x) (y₁ := kk) (x₂ := 0xF#4 ++ 0#4) (y₂ := 0#8)).trans ?_
  rw [BitVec.and_append, show (0xF#4) = BitVec.allOnes 4 from rfl, BitVec.and_allOnes, BitVec.and_zero,
    BitVec.and_zero]
  rfl

theorem formatXNN_and_F0FF (op : BitVec 4) (x : RegIdx) (kk : Byte) :
    formatXNN op x kk &&& 0xF0FF#16 = formatXNN op 0 kk := by
  refine (BitVec.and_append (x₁ := op ++ nibble x) (y₁ := kk) (x₂ := 0xF#4 ++ 0#4) (y₂ := 0xFF#8)).trans ?_
  rw [BitVec.and_append, show (0xF#4) = BitVec.allOnes 4 from rfl, BitVec.and_allOnes, BitVec.and_zero,
    show (0xFF#8) = BitVec.allOnes 8 from rfl, BitVec.and_allOnes]
  rfl

/-- The bits of a word under a mask, nibble by nibble. -/
theorem formatXYN_and (a b : BitVec 4) (x y x' y' : RegIdx) (n m : BitVec 4) :
    formatXYN a x y n &&& formatXYN b x' y' m =
      formatXYN (a &&& b) (nibble x &&& nibble x').toFin (nibble y &&& nibble y').toFin (n &&& m) := by
  refine (BitVec.and_append (x₁ := a ++ nibble x ++ nibble y) (y₁ := n)).trans ?_
  rw [BitVec.and_append, BitVec.and_append]
  rfl

theorem formatXYN_and_F00F (op : BitVec 4) (x y : RegIdx) (n : BitVec 4) :
    formatXYN op x y n &&& 0xF00F#16 = formatXYN op 0 0 n := by
  rw [show (0xF00F#16) = formatXYN 0xF#4 0 0 0xF#4 from rfl, formatXYN_and,
    show (0xF#4) = BitVec.allOnes 4 from rfl, BitVec.and_allOnes, BitVec.and_allOnes,
    show nibble 0 = 0#4 from rfl, BitVec.and_zero, BitVec.and_zero]
  rfl

theorem formatXYN_and_F000 (op : BitVec 4) (x y : RegIdx) (n : BitVec 4) :
    formatXYN op x y n &&& 0xF000#16 = formatXYN op 0 0 0 := by
  rw [show (0xF000#16) = formatXYN 0xF#4 0 0 0#4 from rfl, formatXYN_and,
    show (0xF#4) = BitVec.allOnes 4 from rfl, BitVec.and_allOnes,
    show nibble 0 = 0#4 from rfl, BitVec.and_zero, BitVec.and_zero, BitVec.and_zero]
  rfl

/-- A mask with a full first nibble keeps the family selector. -/
theorem fieldOp_and_F000 (w : Word) : fieldOp (w &&& 0xF000#16) = fieldOp w := by
  rw [← word_eq_formatXYN w, formatXYN_and_F000, fieldOp_formatXYN, fieldOp_formatXYN]

theorem fields_and_F00F (w : Word) :
    fieldOp (w &&& 0xF00F#16) = fieldOp w ∧ fieldN (w &&& 0xF00F#16) = fieldN w := by
  rw [← word_eq_formatXYN w, formatXYN_and_F00F, fieldOp_formatXYN, fieldOp_formatXYN, fieldN_formatXYN,
    fieldN_formatXYN]
  exact ⟨rfl, rfl⟩

/-- Every word in format `XNN`. -/
theorem word_eq_formatXNN (w : Word) :
    formatXNN (BitVec.ofNat 4 (fieldOp w)) (fieldX w) (fieldNN w) = w := by
  have h1 : fieldOp w < 16 := by have := w.isLt; rw [fieldOp_eq]; omega
  apply eq_formatXNN
  · simp only [BitVec.toNat_ofNat]; omega
  · rfl

theorem fields_and_F0FF (w : Word) :
    fieldOp (w &&& 0xF0FF#16) = fieldOp w ∧ fieldNN (w &&& 0xF0FF#16) = fieldNN w := by
  rw [← word_eq_formatXNN w, formatXNN_and_F0FF, fieldOp_formatXNN, fieldOp_formatXNN, fieldNN_formatXNN,
    fieldNN_formatXNN]
  exact ⟨rfl, rfl⟩

/-! ### Refusal by name (rule R57) -/

/-- The only refusal of a word names the word. -/
theorem decodeWord_error {w : Word} {e : DecodeError} (h : decodeWord w = .error e) :
    e = .unknownOpcode w := by
  unfold decodeWord decodeFamily0 decodeFamily8 decodeFamilyE decodeFamilyF at h
  split at h <;> first
    | (cases h; done)
    | (cases h; rfl)
    | (split at h <;> first
        | (cases h; done)
        | (cases h; rfl)
        | (split at h <;> cases h; rfl))

theorem wellFormed_opDXYN (x y : RegIdx) (n : Nat) : (Instr.opDXYN x y n).WellFormed ↔ n < 16 := by
  simp [Instr.WellFormed, Instr.wellFormed]

end Sys2Proof
end

