-- ==== Sys2Proof/Laws/Memory.lean ====
section
/-! SUPPORT. Reading after writing, and the canonical form of the memory. -/

namespace Sys2Proof.Machine

/-! ### One byte -/

@[simp] theorem Memory.read_nil (a : Nat) : Memory.read [] a = resetByte a := rfl

/-- Below its first address a canonical list reads as the reset contents. -/
theorem Memory.read_of_lt {m : Cells} {lo d : Nat} (h : Memory.wfFrom lo m = true) (hd : d < lo) :
    Memory.read m d = resetByte d := by
  induction m generalizing lo with
  | nil => rfl
  | cons q m ih =>
    obtain ⟨e, w⟩ := q
    simp only [Memory.wfFrom, Bool.and_eq_true, decide_eq_true_eq] at h
    have hne : d ≠ e := by omega
    simp only [Memory.read, hne, if_false]
    exact ih h.2 (by omega)

/-- A byte stored reads back, and every other byte reads as before. -/
theorem Memory.read_write (m : Cells) (a : Nat) (v : Byte) (c : Nat)
    (hm : Memory.wf m = true) :
    Memory.read (Memory.write m a v) c = if c = a then v else Memory.read m c := by
  suffices h : ∀ lo, Memory.wfFrom lo m = true →
      Memory.read (Memory.write m a v) c = if c = a then v else Memory.read m c from h 0 hm
  clear hm
  induction m with
  | nil =>
    intro lo _
    simp only [Memory.write]
    split <;> simp_all [Memory.read]
  | cons p m ih =>
    obtain ⟨b, u⟩ := p
    intro lo h
    simp only [Memory.wfFrom, Bool.and_eq_true, decide_eq_true_eq] at h
    have below : ∀ d, d ≤ b → Memory.read m d = resetByte d :=
      fun d hd => Memory.read_of_lt h.2 (by omega)
    simp only [Memory.write]
    by_cases hab : a < b
    · simp only [hab, if_true]
      split
      · rename_i hv
        by_cases hca : c = a
        · subst hca
          have : c ≠ b := by omega
          simp [Memory.read, this, hv, below c (by omega)]
        · simp [hca]
      · simp only [Memory.read]
    · simp only [hab, if_false]
      by_cases hEq : a = b
      · subst hEq
        simp only [if_true]
        split
        · rename_i hv
          by_cases hca : c = a
          · subst hca; simp [hv, below c (Nat.le_refl c)]
          · simp [Memory.read, hca]
        · simp only [Memory.read]
          split <;> simp_all
      · simp only [hEq, if_false, Memory.read]
        by_cases hcb : c = b
        · subst hcb
          have : c ≠ a := by omega
          simp [this]
        · simp only [hcb, if_false]
          exact ih (b + 1) h.2

/-! ### The canonical form -/

theorem Memory.wfFrom_mono {m : Cells} {lo lo' : Nat} (h : Memory.wfFrom lo m = true) (hle : lo' ≤ lo) :
    Memory.wfFrom lo' m = true := by
  cases m with
  | nil => rfl
  | cons p m =>
    simp only [Memory.wfFrom, Bool.and_eq_true, decide_eq_true_eq] at h ⊢
    exact ⟨⟨⟨Nat.le_trans hle h.1.1.1, h.1.1.2⟩, h.1.2⟩, h.2⟩

theorem Memory.write_wfFrom {m : Cells} {lo a : Nat} (v : Byte) (h : Memory.wfFrom lo m = true)
    (hlo : lo ≤ a) (ha : a < Config.memSize) : Memory.wfFrom lo (Memory.write m a v) = true := by
  induction m generalizing lo with
  | nil =>
    simp only [Memory.write]
    split <;> simp_all [Memory.wfFrom]
  | cons p m ih =>
    obtain ⟨b, u⟩ := p
    simp only [Memory.wfFrom, Bool.and_eq_true, decide_eq_true_eq] at h
    obtain ⟨⟨⟨h1, h2⟩, h3⟩, h4⟩ := h
    simp only [Memory.write]
    split
    · split
      · simp [Memory.wfFrom, h1, h2, h3, h4]
      · rename_i hab hv
        simp [Memory.wfFrom, hlo, ha, hv, h2, h3, h4]
        omega
    · split
      · subst_vars
        split
        · exact Memory.wfFrom_mono h4 (by omega)
        · rename_i hv
          simp [Memory.wfFrom, h1, h2, h4, hv]
      · simp only [Memory.wfFrom, Bool.and_eq_true, decide_eq_true_eq]
        exact ⟨⟨⟨h1, h2⟩, h3⟩, ih h4 (by omega)⟩

/-- Storing a byte inside the memory keeps the canonical form. -/
theorem Memory.write_wf {m : Cells} {a : Nat} (v : Byte) (h : Memory.wf m = true)
    (ha : a < Config.memSize) : Memory.wf (Memory.write m a v) = true :=
  Memory.write_wfFrom v h (Nat.zero_le a) ha

/-- Equal memories are equal lists: two canonical lists that read alike everywhere are the same. -/
theorem Memory.ext_of_wf {m m' : Cells} (h : Memory.wf m = true) (h' : Memory.wf m' = true)
    (heq : ∀ a, Memory.read m a = Memory.read m' a) : m = m' := by
  suffices H : ∀ lo, Memory.wfFrom lo m = true → Memory.wfFrom lo m' = true → m = m' from H 0 h h'
  clear h h'
  induction m generalizing m' with
  | nil =>
    intro lo _ h'
    cases m' with
    | nil => rfl
    | cons q m' =>
      obtain ⟨e, w⟩ := q
      simp only [Memory.wfFrom, Bool.and_eq_true, decide_eq_true_eq] at h'
      have := heq e
      simp [Memory.read] at this
      exact absurd this.symm h'.1.2
  | cons p m ih =>
    obtain ⟨b, u⟩ := p
    intro lo h h'
    simp only [Memory.wfFrom, Bool.and_eq_true, decide_eq_true_eq] at h
    cases m' with
    | nil =>
      have := heq b
      simp [Memory.read] at this
      exact absurd this h.1.2
    | cons q m' =>
      obtain ⟨e, w⟩ := q
      simp only [Memory.wfFrom, Bool.and_eq_true, decide_eq_true_eq] at h'
      have hbe : b = e := by
        rcases Nat.lt_trichotomy b e with hlt | hEq | hgt
        · have := heq b
          have hne : b ≠ e := by omega
          simp only [Memory.read, if_true, hne, if_false, Memory.read_of_lt h'.2 (by omega : b < e + 1)] at this
          exact absurd this h.1.2
        · exact hEq
        · have := heq e
          have hne : e ≠ b := by omega
          simp only [Memory.read, if_true, hne, if_false, Memory.read_of_lt h.2 (by omega : e < b + 1)] at this
          exact absurd this.symm h'.1.2
      subst hbe
      have huw : u = w := by simpa [Memory.read] using heq b
      subst huw
      congr 1
      apply ih _ (b + 1) h.2 h'.2
      intro a
      by_cases hab : a = b
      · subst hab
        rw [Memory.read_of_lt h.2 (by omega), Memory.read_of_lt h'.2 (by omega)]
      · simpa [Memory.read, hab] using heq a

/-! ### Runs of bytes -/

@[simp] theorem Memory.length_readBytes (m : Cells) (base len : Nat) :
    (Memory.readBytes m base len).length = len := by
  induction len generalizing base with
  | zero => rfl
  | succ len ih => simp [Memory.readBytes, ih]

theorem Memory.getElem_readBytes (m : Cells) (base len k : Nat) (hk : k < len) :
    (Memory.readBytes m base len)[k]'(by simpa using hk) = Memory.read m (base + k) := by
  induction len generalizing base k with
  | zero => omega
  | succ len ih =>
    cases k with
    | zero => rfl
    | succ k =>
      simp only [Memory.readBytes, List.getElem_cons_succ]
      rw [ih (base + 1) k (by omega)]
      congr 1
      omega

/-- Storing a run of bytes inside the memory keeps the canonical form. -/
theorem Memory.writeBytes_wf {m : Cells} {base : Nat} {bs : List Byte} (h : Memory.wf m = true)
    (hin : bs ≠ [] → base + bs.length ≤ Config.memSize) :
    Memory.wf (Memory.writeBytes m base bs) = true := by
  induction bs generalizing m base with
  | nil => exact h
  | cons b bs ih =>
    have h1 := hin (by simp)
    simp only [List.length_cons] at h1
    exact ih (Memory.write_wf b h (by omega)) (fun _ => by omega)

/-- What a run of stores leaves: its bytes inside, every other byte as before. -/
theorem Memory.read_writeBytes {m : Cells} {base : Nat} {bs : List Byte} (h : Memory.wf m = true)
    (hin : bs ≠ [] → base + bs.length ≤ Config.memSize) (a : Nat) :
    Memory.read (Memory.writeBytes m base bs) a =
      if hk : base ≤ a ∧ a < base + bs.length then bs[a - base]'(by omega) else Memory.read m a := by
  induction bs generalizing m base with
  | nil => simp [Memory.writeBytes]
  | cons b bs ih =>
    have h1 := hin (by simp)
    simp only [List.length_cons] at h1
    simp only [Memory.writeBytes]
    rw [ih (Memory.write_wf b h (by omega)) (fun _ => by omega), Memory.read_write m base b a h]
    simp only [List.length_cons]
    by_cases hab : a = base
    · subst hab
      simp
    · by_cases hk : base + 1 ≤ a ∧ a < base + 1 + bs.length
      · have hk2 : base ≤ a ∧ a < base + (bs.length + 1) := by omega
        simp only [hk, hk2, and_self, dite_true]
        obtain ⟨j, hj⟩ : ∃ j, a = base + 1 + j := ⟨a - (base + 1), by omega⟩
        subst hj
        have e1 : base + 1 + j - (base + 1) = j := by omega
        have e2 : base + 1 + j - base = j + 1 := by omega
        simp only [e1, e2, List.getElem_cons_succ]
      · have hk2 : ¬ (base ≤ a ∧ a < base + (bs.length + 1)) := by omega
        simp only [hk, hk2, hab, dite_false, if_false]

/-- Bytes just stored read back as the same run. -/
theorem Memory.readBytes_writeBytes {m : Cells} {base : Nat} {bs : List Byte} (h : Memory.wf m = true)
    (hin : bs ≠ [] → base + bs.length ≤ Config.memSize) :
    Memory.readBytes (Memory.writeBytes m base bs) base bs.length = bs := by
  apply List.ext_getElem (by simp)
  intro k hk hk'
  rw [Memory.getElem_readBytes _ _ _ _ hk', Memory.read_writeBytes h hin]
  have : base ≤ base + k ∧ base + k < base + bs.length := by omega
  simp [this]

end Sys2Proof.Machine
end

