-- ==== Sys2Proof/Laws/State.lean ====
section
/-! SUPPORT. What each update of the state leaves in each field: one lemma a field and update, so that no
proof unfolds an update. -/

namespace Sys2Proof.Machine

variable (s : State)

/-! ### `writeV` -/

@[simp] theorem writeV_v (x : RegIdx) (b : Byte) : (s.writeV x b).v = s.v.set x b := rfl
@[simp] theorem writeV_i (x : RegIdx) (b : Byte) : (s.writeV x b).i = s.i := rfl
@[simp] theorem writeV_pc (x : RegIdx) (b : Byte) : (s.writeV x b).pc = s.pc := rfl
@[simp] theorem writeV_sp (x : RegIdx) (b : Byte) : (s.writeV x b).sp = s.sp := rfl
@[simp] theorem writeV_stack (x : RegIdx) (b : Byte) : (s.writeV x b).stack = s.stack := rfl
@[simp] theorem writeV_dt (x : RegIdx) (b : Byte) : (s.writeV x b).dt = s.dt := rfl
@[simp] theorem writeV_st (x : RegIdx) (b : Byte) : (s.writeV x b).st = s.st := rfl
@[simp] theorem writeV_mem (x : RegIdx) (b : Byte) : (s.writeV x b).mem = s.mem := rfl
@[simp] theorem writeV_disp (x : RegIdx) (b : Byte) : (s.writeV x b).disp = s.disp := rfl
@[simp] theorem writeV_keys (x : RegIdx) (b : Byte) : (s.writeV x b).keys = s.keys := rfl
@[simp] theorem writeV_waitInput (x : RegIdx) (b : Byte) : (s.writeV x b).waitInput = s.waitInput := rfl
@[simp] theorem writeV_needDraw (x : RegIdx) (b : Byte) : (s.writeV x b).needDraw = s.needDraw := rfl
@[simp] theorem writeV_ir (x : RegIdx) (b : Byte) : (s.writeV x b).ir = s.ir := rfl
@[simp] theorem writeV_env (x : RegIdx) (b : Byte) : (s.writeV x b).env = s.env := rfl
@[simp] theorem writeV_byteAt (x : RegIdx) (b : Byte) (a : Nat) : (s.writeV x b).byteAt a = s.byteAt a := rfl
@[simp] theorem writeV_keyDown (x : RegIdx) (b : Byte) (k : Fin 16) : (s.writeV x b).keyDown k = s.keyDown k := rfl

/-! ### `setI` -/

@[simp] theorem setI_v (w : Word) : (s.setI w).v = s.v := rfl
@[simp] theorem setI_i (w : Word) : (s.setI w).i = w := rfl
@[simp] theorem setI_pc (w : Word) : (s.setI w).pc = s.pc := rfl
@[simp] theorem setI_sp (w : Word) : (s.setI w).sp = s.sp := rfl
@[simp] theorem setI_stack (w : Word) : (s.setI w).stack = s.stack := rfl
@[simp] theorem setI_dt (w : Word) : (s.setI w).dt = s.dt := rfl
@[simp] theorem setI_st (w : Word) : (s.setI w).st = s.st := rfl
@[simp] theorem setI_mem (w : Word) : (s.setI w).mem = s.mem := rfl
@[simp] theorem setI_disp (w : Word) : (s.setI w).disp = s.disp := rfl
@[simp] theorem setI_keys (w : Word) : (s.setI w).keys = s.keys := rfl
@[simp] theorem setI_waitInput (w : Word) : (s.setI w).waitInput = s.waitInput := rfl
@[simp] theorem setI_needDraw (w : Word) : (s.setI w).needDraw = s.needDraw := rfl
@[simp] theorem setI_ir (w : Word) : (s.setI w).ir = s.ir := rfl
@[simp] theorem setI_env (w : Word) : (s.setI w).env = s.env := rfl
@[simp] theorem setI_readV (w : Word) (r : RegIdx) : (s.setI w).readV r = s.readV r := rfl
@[simp] theorem setI_byteAt (w : Word) (a : Nat) : (s.setI w).byteAt a = s.byteAt a := rfl
@[simp] theorem setI_keyDown (w : Word) (k : Fin 16) : (s.setI w).keyDown k = s.keyDown k := rfl

/-! ### `setPc` -/

@[simp] theorem setPc_v (w : Word) : (s.setPc w).v = s.v := rfl
@[simp] theorem setPc_i (w : Word) : (s.setPc w).i = s.i := rfl
@[simp] theorem setPc_pc (w : Word) : (s.setPc w).pc = w := rfl
@[simp] theorem setPc_sp (w : Word) : (s.setPc w).sp = s.sp := rfl
@[simp] theorem setPc_stack (w : Word) : (s.setPc w).stack = s.stack := rfl
@[simp] theorem setPc_dt (w : Word) : (s.setPc w).dt = s.dt := rfl
@[simp] theorem setPc_st (w : Word) : (s.setPc w).st = s.st := rfl
@[simp] theorem setPc_mem (w : Word) : (s.setPc w).mem = s.mem := rfl
@[simp] theorem setPc_disp (w : Word) : (s.setPc w).disp = s.disp := rfl
@[simp] theorem setPc_keys (w : Word) : (s.setPc w).keys = s.keys := rfl
@[simp] theorem setPc_waitInput (w : Word) : (s.setPc w).waitInput = s.waitInput := rfl
@[simp] theorem setPc_needDraw (w : Word) : (s.setPc w).needDraw = s.needDraw := rfl
@[simp] theorem setPc_ir (w : Word) : (s.setPc w).ir = s.ir := rfl
@[simp] theorem setPc_env (w : Word) : (s.setPc w).env = s.env := rfl
@[simp] theorem setPc_readV (w : Word) (r : RegIdx) : (s.setPc w).readV r = s.readV r := rfl
@[simp] theorem setPc_byteAt (w : Word) (a : Nat) : (s.setPc w).byteAt a = s.byteAt a := rfl
@[simp] theorem setPc_keyDown (w : Word) (k : Fin 16) : (s.setPc w).keyDown k = s.keyDown k := rfl

/-! ### `setSp` -/

@[simp] theorem setSp_v (n : Fin 17) : (s.setSp n).v = s.v := rfl
@[simp] theorem setSp_i (n : Fin 17) : (s.setSp n).i = s.i := rfl
@[simp] theorem setSp_pc (n : Fin 17) : (s.setSp n).pc = s.pc := rfl
@[simp] theorem setSp_sp (n : Fin 17) : (s.setSp n).sp = n := rfl
@[simp] theorem setSp_stack (n : Fin 17) : (s.setSp n).stack = s.stack := rfl
@[simp] theorem setSp_dt (n : Fin 17) : (s.setSp n).dt = s.dt := rfl
@[simp] theorem setSp_st (n : Fin 17) : (s.setSp n).st = s.st := rfl
@[simp] theorem setSp_mem (n : Fin 17) : (s.setSp n).mem = s.mem := rfl
@[simp] theorem setSp_disp (n : Fin 17) : (s.setSp n).disp = s.disp := rfl
@[simp] theorem setSp_keys (n : Fin 17) : (s.setSp n).keys = s.keys := rfl
@[simp] theorem setSp_waitInput (n : Fin 17) : (s.setSp n).waitInput = s.waitInput := rfl
@[simp] theorem setSp_needDraw (n : Fin 17) : (s.setSp n).needDraw = s.needDraw := rfl
@[simp] theorem setSp_ir (n : Fin 17) : (s.setSp n).ir = s.ir := rfl
@[simp] theorem setSp_env (n : Fin 17) : (s.setSp n).env = s.env := rfl
@[simp] theorem setSp_readV (n : Fin 17) (r : RegIdx) : (s.setSp n).readV r = s.readV r := rfl
@[simp] theorem setSp_byteAt (n : Fin 17) (a : Nat) : (s.setSp n).byteAt a = s.byteAt a := rfl
@[simp] theorem setSp_keyDown (n : Fin 17) (k : Fin 16) : (s.setSp n).keyDown k = s.keyDown k := rfl

/-! ### `setStack` -/

@[simp] theorem setStack_v (j : Fin 16) (w : Word) : (s.setStack j w).v = s.v := rfl
@[simp] theorem setStack_i (j : Fin 16) (w : Word) : (s.setStack j w).i = s.i := rfl
@[simp] theorem setStack_pc (j : Fin 16) (w : Word) : (s.setStack j w).pc = s.pc := rfl
@[simp] theorem setStack_sp (j : Fin 16) (w : Word) : (s.setStack j w).sp = s.sp := rfl
@[simp] theorem setStack_stack (j : Fin 16) (w : Word) : (s.setStack j w).stack = s.stack.set j w := rfl
@[simp] theorem setStack_dt (j : Fin 16) (w : Word) : (s.setStack j w).dt = s.dt := rfl
@[simp] theorem setStack_st (j : Fin 16) (w : Word) : (s.setStack j w).st = s.st := rfl
@[simp] theorem setStack_mem (j : Fin 16) (w : Word) : (s.setStack j w).mem = s.mem := rfl
@[simp] theorem setStack_disp (j : Fin 16) (w : Word) : (s.setStack j w).disp = s.disp := rfl
@[simp] theorem setStack_keys (j : Fin 16) (w : Word) : (s.setStack j w).keys = s.keys := rfl
@[simp] theorem setStack_waitInput (j : Fin 16) (w : Word) : (s.setStack j w).waitInput = s.waitInput := rfl
@[simp] theorem setStack_needDraw (j : Fin 16) (w : Word) : (s.setStack j w).needDraw = s.needDraw := rfl
@[simp] theorem setStack_ir (j : Fin 16) (w : Word) : (s.setStack j w).ir = s.ir := rfl
@[simp] theorem setStack_env (j : Fin 16) (w : Word) : (s.setStack j w).env = s.env := rfl
@[simp] theorem setStack_readV (j : Fin 16) (w : Word) (r : RegIdx) : (s.setStack j w).readV r = s.readV r := rfl
@[simp] theorem setStack_byteAt (j : Fin 16) (w : Word) (a : Nat) : (s.setStack j w).byteAt a = s.byteAt a := rfl
@[simp] theorem setStack_keyDown (j : Fin 16) (w : Word) (k : Fin 16) : (s.setStack j w).keyDown k = s.keyDown k := rfl

/-! ### `setDt` -/

@[simp] theorem setDt_v (b : Byte) : (s.setDt b).v = s.v := rfl
@[simp] theorem setDt_i (b : Byte) : (s.setDt b).i = s.i := rfl
@[simp] theorem setDt_pc (b : Byte) : (s.setDt b).pc = s.pc := rfl
@[simp] theorem setDt_sp (b : Byte) : (s.setDt b).sp = s.sp := rfl
@[simp] theorem setDt_stack (b : Byte) : (s.setDt b).stack = s.stack := rfl
@[simp] theorem setDt_dt (b : Byte) : (s.setDt b).dt = b := rfl
@[simp] theorem setDt_st (b : Byte) : (s.setDt b).st = s.st := rfl
@[simp] theorem setDt_mem (b : Byte) : (s.setDt b).mem = s.mem := rfl
@[simp] theorem setDt_disp (b : Byte) : (s.setDt b).disp = s.disp := rfl
@[simp] theorem setDt_keys (b : Byte) : (s.setDt b).keys = s.keys := rfl
@[simp] theorem setDt_waitInput (b : Byte) : (s.setDt b).waitInput = s.waitInput := rfl
@[simp] theorem setDt_needDraw (b : Byte) : (s.setDt b).needDraw = s.needDraw := rfl
@[simp] theorem setDt_ir (b : Byte) : (s.setDt b).ir = s.ir := rfl
@[simp] theorem setDt_env (b : Byte) : (s.setDt b).env = s.env := rfl
@[simp] theorem setDt_readV (b : Byte) (r : RegIdx) : (s.setDt b).readV r = s.readV r := rfl
@[simp] theorem setDt_byteAt (b : Byte) (a : Nat) : (s.setDt b).byteAt a = s.byteAt a := rfl
@[simp] theorem setDt_keyDown (b : Byte) (k : Fin 16) : (s.setDt b).keyDown k = s.keyDown k := rfl

/-! ### `setSt` -/

@[simp] theorem setSt_v (b : Byte) : (s.setSt b).v = s.v := rfl
@[simp] theorem setSt_i (b : Byte) : (s.setSt b).i = s.i := rfl
@[simp] theorem setSt_pc (b : Byte) : (s.setSt b).pc = s.pc := rfl
@[simp] theorem setSt_sp (b : Byte) : (s.setSt b).sp = s.sp := rfl
@[simp] theorem setSt_stack (b : Byte) : (s.setSt b).stack = s.stack := rfl
@[simp] theorem setSt_dt (b : Byte) : (s.setSt b).dt = s.dt := rfl
@[simp] theorem setSt_st (b : Byte) : (s.setSt b).st = b := rfl
@[simp] theorem setSt_mem (b : Byte) : (s.setSt b).mem = s.mem := rfl
@[simp] theorem setSt_disp (b : Byte) : (s.setSt b).disp = s.disp := rfl
@[simp] theorem setSt_keys (b : Byte) : (s.setSt b).keys = s.keys := rfl
@[simp] theorem setSt_waitInput (b : Byte) : (s.setSt b).waitInput = s.waitInput := rfl
@[simp] theorem setSt_needDraw (b : Byte) : (s.setSt b).needDraw = s.needDraw := rfl
@[simp] theorem setSt_ir (b : Byte) : (s.setSt b).ir = s.ir := rfl
@[simp] theorem setSt_env (b : Byte) : (s.setSt b).env = s.env := rfl
@[simp] theorem setSt_readV (b : Byte) (r : RegIdx) : (s.setSt b).readV r = s.readV r := rfl
@[simp] theorem setSt_byteAt (b : Byte) (a : Nat) : (s.setSt b).byteAt a = s.byteAt a := rfl
@[simp] theorem setSt_keyDown (b : Byte) (k : Fin 16) : (s.setSt b).keyDown k = s.keyDown k := rfl

/-! ### `setMem` -/

@[simp] theorem setMem_v (m : Cells) : (s.setMem m).v = s.v := rfl
@[simp] theorem setMem_i (m : Cells) : (s.setMem m).i = s.i := rfl
@[simp] theorem setMem_pc (m : Cells) : (s.setMem m).pc = s.pc := rfl
@[simp] theorem setMem_sp (m : Cells) : (s.setMem m).sp = s.sp := rfl
@[simp] theorem setMem_stack (m : Cells) : (s.setMem m).stack = s.stack := rfl
@[simp] theorem setMem_dt (m : Cells) : (s.setMem m).dt = s.dt := rfl
@[simp] theorem setMem_st (m : Cells) : (s.setMem m).st = s.st := rfl
@[simp] theorem setMem_mem (m : Cells) : (s.setMem m).mem = m := rfl
@[simp] theorem setMem_disp (m : Cells) : (s.setMem m).disp = s.disp := rfl
@[simp] theorem setMem_keys (m : Cells) : (s.setMem m).keys = s.keys := rfl
@[simp] theorem setMem_waitInput (m : Cells) : (s.setMem m).waitInput = s.waitInput := rfl
@[simp] theorem setMem_needDraw (m : Cells) : (s.setMem m).needDraw = s.needDraw := rfl
@[simp] theorem setMem_ir (m : Cells) : (s.setMem m).ir = s.ir := rfl
@[simp] theorem setMem_env (m : Cells) : (s.setMem m).env = s.env := rfl
@[simp] theorem setMem_readV (m : Cells) (r : RegIdx) : (s.setMem m).readV r = s.readV r := rfl
@[simp] theorem setMem_keyDown (m : Cells) (k : Fin 16) : (s.setMem m).keyDown k = s.keyDown k := rfl

/-! ### `setDisp` -/

@[simp] theorem setDisp_v (d : Display) : (s.setDisp d).v = s.v := rfl
@[simp] theorem setDisp_i (d : Display) : (s.setDisp d).i = s.i := rfl
@[simp] theorem setDisp_pc (d : Display) : (s.setDisp d).pc = s.pc := rfl
@[simp] theorem setDisp_sp (d : Display) : (s.setDisp d).sp = s.sp := rfl
@[simp] theorem setDisp_stack (d : Display) : (s.setDisp d).stack = s.stack := rfl
@[simp] theorem setDisp_dt (d : Display) : (s.setDisp d).dt = s.dt := rfl
@[simp] theorem setDisp_st (d : Display) : (s.setDisp d).st = s.st := rfl
@[simp] theorem setDisp_mem (d : Display) : (s.setDisp d).mem = s.mem := rfl
@[simp] theorem setDisp_disp (d : Display) : (s.setDisp d).disp = d := rfl
@[simp] theorem setDisp_keys (d : Display) : (s.setDisp d).keys = s.keys := rfl
@[simp] theorem setDisp_waitInput (d : Display) : (s.setDisp d).waitInput = s.waitInput := rfl
@[simp] theorem setDisp_needDraw (d : Display) : (s.setDisp d).needDraw = s.needDraw := rfl
@[simp] theorem setDisp_ir (d : Display) : (s.setDisp d).ir = s.ir := rfl
@[simp] theorem setDisp_env (d : Display) : (s.setDisp d).env = s.env := rfl
@[simp] theorem setDisp_readV (d : Display) (r : RegIdx) : (s.setDisp d).readV r = s.readV r := rfl
@[simp] theorem setDisp_byteAt (d : Display) (a : Nat) : (s.setDisp d).byteAt a = s.byteAt a := rfl
@[simp] theorem setDisp_keyDown (d : Display) (k : Fin 16) : (s.setDisp d).keyDown k = s.keyDown k := rfl

/-! ### `setKey` -/

@[simp] theorem setKey_v (k : Fin 16) (b : Bool) : (s.setKey k b).v = s.v := rfl
@[simp] theorem setKey_i (k : Fin 16) (b : Bool) : (s.setKey k b).i = s.i := rfl
@[simp] theorem setKey_pc (k : Fin 16) (b : Bool) : (s.setKey k b).pc = s.pc := rfl
@[simp] theorem setKey_sp (k : Fin 16) (b : Bool) : (s.setKey k b).sp = s.sp := rfl
@[simp] theorem setKey_stack (k : Fin 16) (b : Bool) : (s.setKey k b).stack = s.stack := rfl
@[simp] theorem setKey_dt (k : Fin 16) (b : Bool) : (s.setKey k b).dt = s.dt := rfl
@[simp] theorem setKey_st (k : Fin 16) (b : Bool) : (s.setKey k b).st = s.st := rfl
@[simp] theorem setKey_mem (k : Fin 16) (b : Bool) : (s.setKey k b).mem = s.mem := rfl
@[simp] theorem setKey_disp (k : Fin 16) (b : Bool) : (s.setKey k b).disp = s.disp := rfl
@[simp] theorem setKey_keys (k : Fin 16) (b : Bool) : (s.setKey k b).keys = s.keys.set k b := rfl
@[simp] theorem setKey_waitInput (k : Fin 16) (b : Bool) : (s.setKey k b).waitInput = s.waitInput := rfl
@[simp] theorem setKey_needDraw (k : Fin 16) (b : Bool) : (s.setKey k b).needDraw = s.needDraw := rfl
@[simp] theorem setKey_ir (k : Fin 16) (b : Bool) : (s.setKey k b).ir = s.ir := rfl
@[simp] theorem setKey_env (k : Fin 16) (b : Bool) : (s.setKey k b).env = s.env := rfl
@[simp] theorem setKey_readV (k : Fin 16) (b : Bool) (r : RegIdx) : (s.setKey k b).readV r = s.readV r := rfl
@[simp] theorem setKey_byteAt (k : Fin 16) (b : Bool) (a : Nat) : (s.setKey k b).byteAt a = s.byteAt a := rfl

/-! ### `setWaitInput` -/

@[simp] theorem setWaitInput_v (b : Bool) : (s.setWaitInput b).v = s.v := rfl
@[simp] theorem setWaitInput_i (b : Bool) : (s.setWaitInput b).i = s.i := rfl
@[simp] theorem setWaitInput_pc (b : Bool) : (s.setWaitInput b).pc = s.pc := rfl
@[simp] theorem setWaitInput_sp (b : Bool) : (s.setWaitInput b).sp = s.sp := rfl
@[simp] theorem setWaitInput_stack (b : Bool) : (s.setWaitInput b).stack = s.stack := rfl
@[simp] theorem setWaitInput_dt (b : Bool) : (s.setWaitInput b).dt = s.dt := rfl
@[simp] theorem setWaitInput_st (b : Bool) : (s.setWaitInput b).st = s.st := rfl
@[simp] theorem setWaitInput_mem (b : Bool) : (s.setWaitInput b).mem = s.mem := rfl
@[simp] theorem setWaitInput_disp (b : Bool) : (s.setWaitInput b).disp = s.disp := rfl
@[simp] theorem setWaitInput_keys (b : Bool) : (s.setWaitInput b).keys = s.keys := rfl
@[simp] theorem setWaitInput_waitInput (b : Bool) : (s.setWaitInput b).waitInput = b := rfl
@[simp] theorem setWaitInput_needDraw (b : Bool) : (s.setWaitInput b).needDraw = s.needDraw := rfl
@[simp] theorem setWaitInput_ir (b : Bool) : (s.setWaitInput b).ir = s.ir := rfl
@[simp] theorem setWaitInput_env (b : Bool) : (s.setWaitInput b).env = s.env := rfl
@[simp] theorem setWaitInput_readV (b : Bool) (r : RegIdx) : (s.setWaitInput b).readV r = s.readV r := rfl
@[simp] theorem setWaitInput_byteAt (b : Bool) (a : Nat) : (s.setWaitInput b).byteAt a = s.byteAt a := rfl
@[simp] theorem setWaitInput_keyDown (b : Bool) (k : Fin 16) : (s.setWaitInput b).keyDown k = s.keyDown k := rfl

/-! ### `setNeedDraw` -/

@[simp] theorem setNeedDraw_v (b : Bool) : (s.setNeedDraw b).v = s.v := rfl
@[simp] theorem setNeedDraw_i (b : Bool) : (s.setNeedDraw b).i = s.i := rfl
@[simp] theorem setNeedDraw_pc (b : Bool) : (s.setNeedDraw b).pc = s.pc := rfl
@[simp] theorem setNeedDraw_sp (b : Bool) : (s.setNeedDraw b).sp = s.sp := rfl
@[simp] theorem setNeedDraw_stack (b : Bool) : (s.setNeedDraw b).stack = s.stack := rfl
@[simp] theorem setNeedDraw_dt (b : Bool) : (s.setNeedDraw b).dt = s.dt := rfl
@[simp] theorem setNeedDraw_st (b : Bool) : (s.setNeedDraw b).st = s.st := rfl
@[simp] theorem setNeedDraw_mem (b : Bool) : (s.setNeedDraw b).mem = s.mem := rfl
@[simp] theorem setNeedDraw_disp (b : Bool) : (s.setNeedDraw b).disp = s.disp := rfl
@[simp] theorem setNeedDraw_keys (b : Bool) : (s.setNeedDraw b).keys = s.keys := rfl
@[simp] theorem setNeedDraw_waitInput (b : Bool) : (s.setNeedDraw b).waitInput = s.waitInput := rfl
@[simp] theorem setNeedDraw_needDraw (b : Bool) : (s.setNeedDraw b).needDraw = b := rfl
@[simp] theorem setNeedDraw_ir (b : Bool) : (s.setNeedDraw b).ir = s.ir := rfl
@[simp] theorem setNeedDraw_env (b : Bool) : (s.setNeedDraw b).env = s.env := rfl
@[simp] theorem setNeedDraw_readV (b : Bool) (r : RegIdx) : (s.setNeedDraw b).readV r = s.readV r := rfl
@[simp] theorem setNeedDraw_byteAt (b : Bool) (a : Nat) : (s.setNeedDraw b).byteAt a = s.byteAt a := rfl
@[simp] theorem setNeedDraw_keyDown (b : Bool) (k : Fin 16) : (s.setNeedDraw b).keyDown k = s.keyDown k := rfl

/-! ### `setIr` -/

@[simp] theorem setIr_v (w : Word) : (s.setIr w).v = s.v := rfl
@[simp] theorem setIr_i (w : Word) : (s.setIr w).i = s.i := rfl
@[simp] theorem setIr_pc (w : Word) : (s.setIr w).pc = s.pc := rfl
@[simp] theorem setIr_sp (w : Word) : (s.setIr w).sp = s.sp := rfl
@[simp] theorem setIr_stack (w : Word) : (s.setIr w).stack = s.stack := rfl
@[simp] theorem setIr_dt (w : Word) : (s.setIr w).dt = s.dt := rfl
@[simp] theorem setIr_st (w : Word) : (s.setIr w).st = s.st := rfl
@[simp] theorem setIr_mem (w : Word) : (s.setIr w).mem = s.mem := rfl
@[simp] theorem setIr_disp (w : Word) : (s.setIr w).disp = s.disp := rfl
@[simp] theorem setIr_keys (w : Word) : (s.setIr w).keys = s.keys := rfl
@[simp] theorem setIr_waitInput (w : Word) : (s.setIr w).waitInput = s.waitInput := rfl
@[simp] theorem setIr_needDraw (w : Word) : (s.setIr w).needDraw = s.needDraw := rfl
@[simp] theorem setIr_ir (w : Word) : (s.setIr w).ir = w := rfl
@[simp] theorem setIr_env (w : Word) : (s.setIr w).env = s.env := rfl
@[simp] theorem setIr_readV (w : Word) (r : RegIdx) : (s.setIr w).readV r = s.readV r := rfl
@[simp] theorem setIr_byteAt (w : Word) (a : Nat) : (s.setIr w).byteAt a = s.byteAt a := rfl
@[simp] theorem setIr_keyDown (w : Word) (k : Fin 16) : (s.setIr w).keyDown k = s.keyDown k := rfl

/-! ### `setEnv` -/

@[simp] theorem setEnv_v (e : Env) : (s.setEnv e).v = s.v := rfl
@[simp] theorem setEnv_i (e : Env) : (s.setEnv e).i = s.i := rfl
@[simp] theorem setEnv_pc (e : Env) : (s.setEnv e).pc = s.pc := rfl
@[simp] theorem setEnv_sp (e : Env) : (s.setEnv e).sp = s.sp := rfl
@[simp] theorem setEnv_stack (e : Env) : (s.setEnv e).stack = s.stack := rfl
@[simp] theorem setEnv_dt (e : Env) : (s.setEnv e).dt = s.dt := rfl
@[simp] theorem setEnv_st (e : Env) : (s.setEnv e).st = s.st := rfl
@[simp] theorem setEnv_mem (e : Env) : (s.setEnv e).mem = s.mem := rfl
@[simp] theorem setEnv_disp (e : Env) : (s.setEnv e).disp = s.disp := rfl
@[simp] theorem setEnv_keys (e : Env) : (s.setEnv e).keys = s.keys := rfl
@[simp] theorem setEnv_waitInput (e : Env) : (s.setEnv e).waitInput = s.waitInput := rfl
@[simp] theorem setEnv_needDraw (e : Env) : (s.setEnv e).needDraw = s.needDraw := rfl
@[simp] theorem setEnv_ir (e : Env) : (s.setEnv e).ir = s.ir := rfl
@[simp] theorem setEnv_env (e : Env) : (s.setEnv e).env = e := rfl
@[simp] theorem setEnv_readV (e : Env) (r : RegIdx) : (s.setEnv e).readV r = s.readV r := rfl
@[simp] theorem setEnv_byteAt (e : Env) (a : Nat) : (s.setEnv e).byteAt a = s.byteAt a := rfl
@[simp] theorem setEnv_keyDown (e : Env) (k : Fin 16) : (s.setEnv e).keyDown k = s.keyDown k := rfl

/-! ### `advance` -/

@[simp] theorem advance_v : (s.advance).v = s.v := rfl
@[simp] theorem advance_i : (s.advance).i = s.i := rfl
@[simp] theorem advance_pc : (s.advance).pc = s.pc + 2 := rfl
@[simp] theorem advance_sp : (s.advance).sp = s.sp := rfl
@[simp] theorem advance_stack : (s.advance).stack = s.stack := rfl
@[simp] theorem advance_dt : (s.advance).dt = s.dt := rfl
@[simp] theorem advance_st : (s.advance).st = s.st := rfl
@[simp] theorem advance_mem : (s.advance).mem = s.mem := rfl
@[simp] theorem advance_disp : (s.advance).disp = s.disp := rfl
@[simp] theorem advance_keys : (s.advance).keys = s.keys := rfl
@[simp] theorem advance_waitInput : (s.advance).waitInput = s.waitInput := rfl
@[simp] theorem advance_needDraw : (s.advance).needDraw = s.needDraw := rfl
@[simp] theorem advance_ir : (s.advance).ir = s.ir := rfl
@[simp] theorem advance_env : (s.advance).env = s.env := rfl
@[simp] theorem advance_readV (r : RegIdx) : (s.advance).readV r = s.readV r := rfl
@[simp] theorem advance_byteAt (a : Nat) : (s.advance).byteAt a = s.byteAt a := rfl
@[simp] theorem advance_keyDown (k : Fin 16) : (s.advance).keyDown k = s.keyDown k := rfl

/-! ### `skipIf` -/

@[simp] theorem skipIf_v (c : Bool) : (s.skipIf c).v = s.v := rfl
@[simp] theorem skipIf_i (c : Bool) : (s.skipIf c).i = s.i := rfl
@[simp] theorem skipIf_pc (c : Bool) : (s.skipIf c).pc = s.pc + if c then 4 else 2 := rfl
@[simp] theorem skipIf_sp (c : Bool) : (s.skipIf c).sp = s.sp := rfl
@[simp] theorem skipIf_stack (c : Bool) : (s.skipIf c).stack = s.stack := rfl
@[simp] theorem skipIf_dt (c : Bool) : (s.skipIf c).dt = s.dt := rfl
@[simp] theorem skipIf_st (c : Bool) : (s.skipIf c).st = s.st := rfl
@[simp] theorem skipIf_mem (c : Bool) : (s.skipIf c).mem = s.mem := rfl
@[simp] theorem skipIf_disp (c : Bool) : (s.skipIf c).disp = s.disp := rfl
@[simp] theorem skipIf_keys (c : Bool) : (s.skipIf c).keys = s.keys := rfl
@[simp] theorem skipIf_waitInput (c : Bool) : (s.skipIf c).waitInput = s.waitInput := rfl
@[simp] theorem skipIf_needDraw (c : Bool) : (s.skipIf c).needDraw = s.needDraw := rfl
@[simp] theorem skipIf_ir (c : Bool) : (s.skipIf c).ir = s.ir := rfl
@[simp] theorem skipIf_env (c : Bool) : (s.skipIf c).env = s.env := rfl
@[simp] theorem skipIf_readV (c : Bool) (r : RegIdx) : (s.skipIf c).readV r = s.readV r := rfl
@[simp] theorem skipIf_byteAt (c : Bool) (a : Nat) : (s.skipIf c).byteAt a = s.byteAt a := rfl
@[simp] theorem skipIf_keyDown (c : Bool) (k : Fin 16) : (s.skipIf c).keyDown k = s.keyDown k := rfl

/-! ### Reading what was written -/

theorem readV_writeV (x : RegIdx) (b : Byte) (r : RegIdx) :
    (s.writeV x b).readV r = if r = x then b else s.readV r := by
  simp only [State.readV, writeV_v]
  by_cases h : r = x
  · subst h; simp
  · have : (x : Nat) ≠ r := fun e => h (Fin.ext e.symm)
    simp [h, this]

@[simp] theorem readV_writeV_self (x : RegIdx) (b : Byte) : (s.writeV x b).readV x = b := by
  simp [readV_writeV]

theorem readV_writeV_of_ne {x r : RegIdx} (h : r ≠ x) (b : Byte) :
    (s.writeV x b).readV r = s.readV r := by
  simp [readV_writeV, h]

@[simp] theorem byteAt_setMem (m : Cells) (a : Nat) : (s.setMem m).byteAt a = Memory.read m a := rfl

theorem keyDown_setKey (j : Fin 16) (b : Bool) (k : Fin 16) :
    (s.setKey j b).keyDown k = if k = j then b else s.keyDown k := by
  simp only [State.keyDown, setKey_keys]
  by_cases h : k = j
  · subst h; simp
  · have : (j : Nat) ≠ k := fun e => h (Fin.ext e.symm)
    simp [h, this]

theorem stack_setStack (j : Fin 16) (w : Word) (k : Fin 16) :
    (s.setStack j w).stack[k] = if k = j then w else s.stack[k] := by
  simp only [setStack_stack]
  by_cases h : k = j
  · subst h; simp
  · have : (j : Nat) ≠ k := fun e => h (Fin.ext e.symm)
    simp [h, this]

/-- Two register files that read alike are the same data. -/
theorem v_ext {s t : State} (h : ∀ r, t.readV r = s.readV r) : t.v = s.v := by
  apply Vector.ext
  intro k hk
  exact h ⟨k, hk⟩

/-- Two states that agree field by field are the same data. -/
theorem state_ext {s t : State} (hv : t.v = s.v) (hi : t.i = s.i) (hpc : t.pc = s.pc) (hsp : t.sp = s.sp)
    (hstack : t.stack = s.stack) (hdt : t.dt = s.dt) (hst : t.st = s.st) (hmem : t.mem = s.mem)
    (hdisp : t.disp = s.disp) (hkeys : t.keys = s.keys) (hw : t.waitInput = s.waitInput)
    (hn : t.needDraw = s.needDraw) (hir : t.ir = s.ir) (henv : t.env = s.env) : t = s := by
  cases s; cases t; simp_all

end Sys2Proof.Machine
end

