-- ==== Sys2Proof/Laws/Ops.lean ====
section
/-! SUPPORT. What each shared operation can do, said once. -/

namespace Sys2Proof.Machine

/-! ### Faults -/

/-- Raising a fault ends in that cause, with the state it was given (rules R80, R168). -/
theorem raise_spec (c : FaultCause) (s : State) :
    ∃ f, raise c s = .fault f ∧ f.cause = c ∧ f.after = s := by
  cases c <;> exact ⟨_, rfl, rfl, rfl⟩

@[simp] theorem raise_ne_next (c : FaultCause) (s t : State) : raise c s ≠ .next t := by
  cases c <;> simp [raise]

@[simp] theorem raise_ne_refused (c : FaultCause) (s : State) (r : Refusal) : raise c s ≠ .refused r := by
  cases c <;> simp [raise]

/-- Which fault a raise is. -/
theorem raise_eq_fault {c : FaultCause} {s : State} {f : Fault} (h : raise c s = .fault f) :
    f.cause = c ∧ f.after = s := by
  cases c <;> cases h <;> exact ⟨rfl, rfl⟩

/-! ### Ranges -/

theorem accessInRange_iff (base len : Nat) :
    accessInRange base len = true ↔ len = 0 ∨ base + len ≤ 0x1000 := by
  simp only [accessInRange, Bool.or_eq_true, beq_iff_eq, decide_eq_true_eq]
  omega

theorem loadBytes_of_inRange {s : State} {base len : Nat} (h : len = 0 ∨ base + len ≤ 0x1000) :
    s.loadBytes base len = some (Memory.readBytes s.mem base len) := by
  simp [State.loadBytes, (accessInRange_iff base len).2 h]

theorem loadBytes_of_outOfRange {s : State} {base len : Nat} (h0 : 0 < len) (h : 0x1000 < base + len) :
    s.loadBytes base len = none := by
  have : ¬ accessInRange base len = true := fun e => by
    rcases (accessInRange_iff base len).1 e with h | h <;> omega
  simp [State.loadBytes, this]

/-- If bytes are loaded, they are the ones in memory, and the access was in range. -/
theorem loadBytes_eq_some {s : State} {base len : Nat} {bs : List Byte}
    (h : s.loadBytes base len = some bs) :
    (len = 0 ∨ base + len ≤ 0x1000) ∧ bs = Memory.readBytes s.mem base len := by
  simp only [State.loadBytes] at h
  split at h
  · rename_i hr
    exact ⟨(accessInRange_iff _ _).1 hr, (Option.some.inj h).symm⟩
  · cases h

theorem storeBytes_of_inRange {s : State} {base : Nat} {bs : List Byte}
    (h : base + bs.length ≤ 0x1000) :
    s.storeBytes base bs = some (s.setMem (Memory.writeBytes s.mem base bs)) := by
  simp [State.storeBytes, (accessInRange_iff base bs.length).2 (.inr h)]

theorem storeBytes_of_outOfRange {s : State} {base : Nat} {bs : List Byte} (h0 : bs ≠ [])
    (h : 0x1000 < base + bs.length) : s.storeBytes base bs = none := by
  have : ¬ accessInRange base bs.length = true := fun e => by
    rcases (accessInRange_iff base bs.length).1 e with h' | h'
    · exact h0 (List.length_eq_zero_iff.1 h')
    · omega
  simp [State.storeBytes, this]

/-- If bytes are stored, only the memory changes, and the access was in range. -/
theorem storeBytes_eq_some {s t : State} {base : Nat} {bs : List Byte}
    (h : s.storeBytes base bs = some t) :
    (bs ≠ [] → base + bs.length ≤ Config.memSize) ∧ t = s.setMem (Memory.writeBytes s.mem base bs) := by
  simp only [State.storeBytes] at h
  split at h
  · rename_i hr
    refine ⟨fun hne => ?_, (Option.some.inj h).symm⟩
    rcases (accessInRange_iff _ _).1 hr with h' | h'
    · exact absurd (List.length_eq_zero_iff.1 h') hne
    · exact h'
  · cases h

/-! ### Fetch (rule R75) -/

theorem fetchWord_of_le {s : State} (h : s.pc.toNat ≤ 0xFFE) :
    s.fetchWord = some (wordOfBytes (s.byteAt s.pc.toNat) (s.byteAt (s.pc.toNat + 1))) := by
  have h1 : ¬ s.pc.toNat > 0xFFF := by omega
  have h2 : ¬ s.pc.toNat + 1 > 0xFFF := by omega
  simp [State.fetchWord, State.memRead, h1, h2]

theorem fetchWord_of_gt {s : State} (h : 0xFFE < s.pc.toNat) : s.fetchWord = none := by
  have h2 : s.pc.toNat + 1 > 0xFFF := by omega
  simp only [State.fetchWord, State.memRead, h2, if_true]
  split <;> simp_all

/-- The fetch looks at `PC` and the memory only. -/
theorem fetchWord_congr {s t : State} (hpc : t.pc = s.pc) (hmem : t.mem = s.mem) :
    t.fetchWord = s.fetchWord := by
  simp [State.fetchWord, State.memRead, State.byteAt, hpc, hmem]

/-! ### The return stack (rules R90, R92) -/

theorem push_of_lt {s : State} (h : s.sp.val < 16) (w : Word) :
    s.push w = some ((s.setStack ⟨s.sp.val, h⟩ w).setSp ⟨s.sp.val + 1, Nat.succ_lt_succ h⟩) := by
  simp [State.push, h]

theorem push_of_full {s : State} (h : s.sp.val = 16) (w : Word) : s.push w = none := by
  simp [State.push, h]

/-- If a push answers, the stack was not full. -/
theorem push_eq_some {s t : State} {w : Word} (h : s.push w = some t) :
    ∃ hlt : s.sp.val < 16,
      t = (s.setStack ⟨s.sp.val, hlt⟩ w).setSp ⟨s.sp.val + 1, Nat.succ_lt_succ hlt⟩ := by
  simp only [State.push] at h
  split at h
  · rename_i hlt
    exact ⟨hlt, (Option.some.inj h).symm⟩
  · cases h

theorem pop_of_pos {s : State} (h : 0 < s.sp.val) :
    s.pop = some (s.stack[s.sp.val - 1]'(by omega), s.setSp ⟨s.sp.val - 1, by omega⟩) := by
  unfold State.pop
  split
  · rename_i h0; rw [h0] at h; simp at h
  · rename_i k hk h0
    have : s.sp.val = k + 1 := by rw [h0]
    simp [this]

theorem pop_of_empty {s : State} (h : s.sp.val = 0) : s.pop = none := by
  unfold State.pop
  split
  · rfl
  · rename_i k hk h0
    rw [h0] at h
    simp at h

/-- If a pop answers, the stack was not empty. -/
theorem pop_eq_some {s t : State} {w : Word} (h : s.pop = some (w, t)) :
    ∃ hpos : 0 < s.sp.val, w = s.stack[s.sp.val - 1]'(by omega) ∧ t = s.setSp ⟨s.sp.val - 1, by omega⟩ := by
  by_cases hpos : 0 < s.sp.val
  · rw [pop_of_pos hpos] at h
    simp only [Option.some.injEq, Prod.mk.injEq] at h
    exact ⟨hpos, h.1.symm, h.2.symm⟩
  · rw [pop_of_empty (by omega)] at h
    cases h

/-! ### Timers (rule R72) -/

@[simp] theorem tickTimer_toNat (b : Byte) : (tickTimer b).toNat = b.toNat - 1 := by
  unfold tickTimer
  have hb := b.isLt
  split
  · rename_i h
    have : b.toNat ≠ 0 := fun e => h (BitVec.eq_of_toNat_eq (by simpa using e))
    rw [BitVec.toNat_sub]
    simp
    omega
  · rename_i h
    have : b = 0 := by simpa using h
    subst this
    rfl

/-! ### Registers as a run of bytes (rules R134, R135) -/

@[simp] theorem length_regsUpTo (s : State) (x : RegIdx) : (s.regsUpTo x).length = x.val + 1 := by
  simp only [State.regsUpTo, List.length_take, Vector.length_toList]
  omega

theorem getElem_regsUpTo (s : State) (x : RegIdx) (k : Nat) (hk : k < x.val + 1) :
    (s.regsUpTo x)[k]'(by simpa using hk) = s.readV ⟨k, by omega⟩ := by
  simp [State.regsUpTo, State.readV]

theorem regsUpTo_ne_nil (s : State) (x : RegIdx) : s.regsUpTo x ≠ [] := by
  intro h
  have := length_regsUpTo s x
  simp [h] at this

/-- What a run of loads leaves in the registers. -/
theorem loadRegs_readV (bs : List Byte) (s : State) (k : Nat) (hk : k + bs.length ≤ 16) (r : RegIdx) :
    (s.loadRegs k bs).readV r =
      if h : k ≤ r.val ∧ r.val < k + bs.length then bs[r.val - k]'(by omega) else s.readV r := by
  induction bs generalizing s k with
  | nil => simp [State.loadRegs]
  | cons b bs ih =>
    simp only [List.length_cons] at hk
    simp only [State.loadRegs]
    rw [ih _ _ (by omega), readV_writeV]
    have hr := r.isLt
    have hidx : (regNumber k).val = k := by simp [regNumber]; omega
    by_cases hrk : r.val = k
    · have : r = regNumber k := Fin.ext (by rw [hidx, hrk])
      subst hrk
      have h1 : ¬ (r.val + 1 ≤ r.val ∧ r.val < r.val + 1 + bs.length) := by omega
      have h2 : r.val ≤ r.val ∧ r.val < r.val + (bs.length + 1) := by omega
      simp only [h1, h2, ← this, List.length_cons, and_self, dite_true, dite_false, if_true]
      simp
    · have hne : r ≠ regNumber k := fun e => hrk (by rw [e, hidx])
      by_cases hin : k + 1 ≤ r.val ∧ r.val < k + 1 + bs.length
      · have hin2 : k ≤ r.val ∧ r.val < k + (bs.length + 1) := by omega
        simp only [hin, hin2, List.length_cons, and_self, dite_true]
        obtain ⟨j, hj⟩ : ∃ j, r.val = k + 1 + j := ⟨r.val - (k + 1), by omega⟩
        have e1 : r.val - (k + 1) = j := by omega
        have e2 : r.val - k = j + 1 := by omega
        simp only [e1, e2, List.getElem_cons_succ]
      · have hin2 : ¬ (k ≤ r.val ∧ r.val < k + (bs.length + 1)) := by omega
        simp only [hin, hin2, hne, List.length_cons, dite_false, if_false]

/-- A run of register loads changes nothing but the registers. -/
theorem loadRegs_only_v (bs : List Byte) (s : State) (k : Nat) :
    s.loadRegs k bs = { s with v := (s.loadRegs k bs).v } := by
  induction bs generalizing s k with
  | nil => rfl
  | cons b bs ih =>
    simp only [State.loadRegs]
    rw [ih]
    rfl

/-! ### Operand forms -/

@[simp] theorem absolute_toNat (nnn : Addr12) : (absolute nnn).toNat = nnn.toNat := by
  have := nnn.isLt
  simp only [absolute, BitVec.toNat_setWidth]
  omega

@[simp] theorem extendByte_toNat (b : Byte) : (extendByte b).toNat = b.toNat := by
  have := b.isLt
  simp only [extendByte, BitVec.toNat_setWidth]
  omega

@[simp] theorem glyphAddress_toNat (b : Byte) : (glyphAddress b).toNat = b.toNat * 5 := by
  have := b.isLt
  have h5 : (5 : Word).toNat = 5 := rfl
  simp only [glyphAddress, BitVec.toNat_mul, extendByte_toNat, h5]
  omega

@[simp] theorem effAddr_zero (s : State) : s.effAddr 0 = s.i.toNat := rfl

theorem keyIndex_of_lt {b : Byte} (h : b.toNat < 16) : keyIndex b = some ⟨b.toNat, h⟩ := by
  simp [keyIndex, h]

theorem keyIndex_of_ge {b : Byte} (h : 16 ≤ b.toNat) : keyIndex b = none := by
  have : ¬ b.toNat < 16 := by omega
  simp [keyIndex, this]

@[simp] theorem length_decimalDigits (b : Byte) : (decimalDigits b).length = 3 := rfl

/-! ### Flags -/

@[simp] theorem flagByte_toNat (c : Bool) : (flagByte c).toNat = if c then 1 else 0 := by
  cases c <;> rfl

theorem carryFlag_toNat (a b : Byte) : (carryFlag a b).toNat = if a.toNat + b.toNat > 255 then 1 else 0 := by
  have := a.isLt
  simp only [carryFlag, flagByte_toNat, decide_eq_true_eq]
  split <;> split <;> omega

theorem noBorrowFlag_toNat (a b : Byte) :
    (noBorrowFlag a b).toNat = if b.toNat > a.toNat then 0 else 1 := by
  by_cases h : b.toNat > a.toNat <;> simp [noBorrowFlag, h]

theorem lowBitFlag_toNat (a : Byte) : (lowBitFlag a).toNat = a.toNat % 2 := by
  simp [lowBitFlag, Nat.and_one_is_mod]

theorem highBitFlag_toNat (a : Byte) : (highBitFlag a).toNat = a.toNat / 128 := by
  simp [highBitFlag, Nat.shiftRight_eq_div_pow]

/-- The two writes of a flag-writing instruction, in terms of the registers before it (rule R123). -/
theorem flagThenResult_eq (s : State) (x : RegIdx) (flag result : State → Byte) :
    flagThenResult s x flag result =
      .next (((s.writeV vF (flag s)).writeV x (result (s.writeV vF (flag s)))).advance) := rfl

end Sys2Proof.Machine
end

