-- ==== Sys2Proof/Laws/Display.lean ====
section
/-! SUPPORT. What drawing a sprite leaves in each cell, and when the detector sees a collision: the loops of
rule R141 as one formula a cell (rules R142 to R145). -/

namespace Sys2Proof.Machine

/-! ### One cell -/

/-- The writer inverts the one cell it is pointed at (rule R145). -/
theorem framebufferPixelWriter_cell (d : Display) (r : Fin 32) (c : Fin 64) (r' : Fin 32) (c' : Fin 64) :
    (framebufferPixelWriter d r c).cell r' c' = (d.cell r' c' ^^ (decide (r' = r) && decide (c' = c))) := by
  unfold framebufferPixelWriter Display.cell
  by_cases hr : r' = r
  · subst hr
    by_cases hc : c' = c
    · subst hc; simp
    · have : (c : Nat) ≠ c' := fun e => hc (Fin.ext e.symm)
      simp [hc, this]
  · have : (r : Nat) ≠ r' := fun e => hr (Fin.ext e.symm)
    simp [hr, this]

theorem blankDisplay_cell (r : Fin 32) (c : Fin 64) : blankDisplay.cell r c = false := by
  simp [blankDisplay, Display.cell]

/-- Two grids that agree in every cell are the same data. -/
theorem Display.ext_cell {d d' : Display} (h : ∀ r c, d.cell r c = d'.cell r c) : d = d' := by
  apply Vector.ext
  intro r hr
  apply Vector.ext
  intro c hc
  exact h ⟨r, hr⟩ ⟨c, hc⟩

/-! ### One sprite row -/

/-- How many columns to the right of `vx`, with wraparound, column `c` lies. -/
def colOffset (vx : Nat) (c : Fin 64) : Nat := (c.val + (64 - vx % 64)) % 64

/-- How many rows below `vy`, with wraparound, row `r` lies. -/
def rowOffset (vy : Nat) (r : Fin 32) : Nat := (r.val + (32 - vy % 32)) % 32

theorem colOffset_eq_iff (vx : Nat) (c : Fin 64) (k : Nat) (hk : k < 64) :
    colOffset vx c = k ↔ c = displayCol (vx + k) := by
  have := c.isLt
  rw [Fin.ext_iff]
  simp only [colOffset, displayCol]
  omega

theorem rowOffset_eq_iff (vy : Nat) (r : Fin 32) (k : Nat) (hk : k < 32) :
    rowOffset vy r = k ↔ r = displayRow (vy + k) := by
  have := r.isLt
  rw [Fin.ext_iff]
  simp only [rowOffset, displayRow]
  omega

/-- Whether the leftmost `m` bits of a sprite row at `vx` cover column `c` with a 1. -/
def rowCovers (vx : Nat) (b : Byte) (m : Nat) (c : Fin 64) : Bool :=
  decide (colOffset vx c < m) && b.getLsbD (7 - colOffset vx c)

theorem rowCovers_succ (vx : Nat) (b : Byte) (m : Nat) (hm : m < 64) (c : Fin 64) :
    rowCovers vx b (m + 1) c =
      (rowCovers vx b m c ^^ (decide (c = displayCol (vx + m)) && b.getLsbD (7 - m))) := by
  have hiff := colOffset_eq_iff vx c m hm
  by_cases h : colOffset vx c = m
  · have hc := hiff.1 h
    simp [rowCovers, h, ← hc]
  · have hc : ¬ c = displayCol (vx + m) := fun e => h (hiff.2 e)
    have : colOffset vx c < m + 1 ↔ colOffset vx c < m := by omega
    simp [rowCovers, hc, this]

/-- The first `m` bits of a sprite row drawn: every cell, and the collision flag. -/
theorem drawBits_spec (k : Canvas) (vx row : Nat) (b : Byte) (m : Nat) (hm : m ≤ 8) :
    (∀ r c, ((List.range m).foldl (fun k col => k.drawBit vx row b col) k).disp.cell r c =
      (k.disp.cell r c ^^ (decide (r = displayRow row) && rowCovers vx b m c))) ∧
    (((List.range m).foldl (fun k col => k.drawBit vx row b col) k).collision = true ↔
      k.collision = true ∨
        ∃ c, rowCovers vx b m c = true ∧ k.disp.cell (displayRow row) c = true) := by
  induction m with
  | zero => simp [rowCovers]
  | succ m ih =>
    obtain ⟨ihc, ihf⟩ := ih (by omega)
    simp only [List.range_succ, List.foldl_append, List.foldl_cons, List.foldl_nil]
    generalize hk' : (List.range m).foldl (fun k col => k.drawBit vx row b col) k = k' at ihc ihf
    have hself : rowCovers vx b m (displayCol (vx + m)) = false := by
      have : colOffset vx (displayCol (vx + m)) = m := (colOffset_eq_iff vx _ m (by omega)).2 rfl
      simp [rowCovers, this]
    by_cases hbit : b.getLsbD (7 - m) = true
    · have hd : k'.drawBit vx row b m = k'.hit (displayRow row) (displayCol (vx + m)) := by
        simp [Canvas.drawBit, hbit]
      rw [hd]
      constructor
      · intro r c
        simp only [Canvas.hit, framebufferPixelWriter_cell, ihc, rowCovers_succ vx b m (by omega), hbit]
        by_cases hr : r = displayRow row <;> simp [hr]
      · simp only [Canvas.hit, spriteCollisionDetector, Bool.or_eq_true, ihf, ihc, hself]
        constructor
        · rintro ((h | ⟨c, h1, h2⟩) | h)
          · exact .inl h
          · refine .inr ⟨c, ?_, h2⟩
            have : c ≠ displayCol (vx + m) := fun e => by rw [e, hself] at h1; cases h1
            simp [rowCovers_succ vx b m (by omega), h1, this]
          · refine .inr ⟨displayCol (vx + m), ?_, by simpa using h⟩
            rw [rowCovers_succ vx b m (by omega), hself]
            simpa using hbit
        · rintro (h | ⟨c, h1, h2⟩)
          · exact .inl (.inl h)
          · by_cases hc : c = displayCol (vx + m)
            · subst hc; exact .inr (by simpa using h2)
            · refine .inl (.inr ⟨c, ?_, h2⟩)
              simpa [rowCovers_succ vx b m (by omega), hc] using h1
    · have hbit' : b.getLsbD (7 - m) = false := by simpa using hbit
      have hd : k'.drawBit vx row b m = k' := by simp [Canvas.drawBit, hbit']
      have hsucc : ∀ c, rowCovers vx b (m + 1) c = rowCovers vx b m c := by
        intro c
        simp [rowCovers_succ vx b m (by omega), hbit']
      rw [hd]
      simp only [hsucc]
      exact ⟨ihc, ihf⟩

/-- One sprite row drawn: every cell, and the collision flag. -/
theorem drawRow_spec (k : Canvas) (vx row : Nat) (b : Byte) :
    (∀ r c, (k.drawRow vx row b).disp.cell r c =
      (k.disp.cell r c ^^ (decide (r = displayRow row) && rowCovers vx b 8 c))) ∧
    ((k.drawRow vx row b).collision = true ↔
      k.collision = true ∨
        ∃ c, rowCovers vx b 8 c = true ∧ k.disp.cell (displayRow row) c = true) :=
  drawBits_spec k vx row b 8 (Nat.le_refl 8)

/-! ### A whole sprite -/

/-- Whether a sprite with these rows at (`vx`, `vy`) covers a cell with a 1. -/
def spriteCovers (vx vy : Nat) (rows : List Byte) (r : Fin 32) (c : Fin 64) : Bool :=
  decide (rowOffset vy r < rows.length) && rowCovers vx (rows.getD (rowOffset vy r) 0) 8 c

theorem rowOffset_succ {vy : Nat} {r : Fin 32} (h : rowOffset vy r ≠ 0) :
    rowOffset (vy + 1) r = rowOffset vy r - 1 := by
  have := r.isLt
  simp only [rowOffset] at h ⊢
  omega

theorem rowOffset_succ_of_zero {vy : Nat} {r : Fin 32} (h : rowOffset vy r = 0) :
    rowOffset (vy + 1) r = 31 := by
  have := r.isLt
  simp only [rowOffset] at h ⊢
  omega

theorem rowOffset_zero_iff (vy : Nat) (r : Fin 32) : rowOffset vy r = 0 ↔ r = displayRow vy := by
  simpa using rowOffset_eq_iff vy r 0 (by omega)

/-- The first row and the rest cover different cells, since a sprite has at most 32 rows. -/
theorem spriteCovers_cons (vx vy : Nat) (b : Byte) (bs : List Byte) (r : Fin 32) (c : Fin 64) :
    spriteCovers vx vy (b :: bs) r c =
      if r = displayRow vy then rowCovers vx b 8 c else spriteCovers vx (vy + 1) bs r c := by
  by_cases h : rowOffset vy r = 0
  · rw [if_pos ((rowOffset_zero_iff vy r).1 h)]
    simp [spriteCovers, h]
  · have hr : ¬ r = displayRow vy := fun e => h ((rowOffset_zero_iff vy r).2 e)
    obtain ⟨j, hj⟩ : ∃ j, rowOffset vy r = j + 1 := ⟨rowOffset vy r - 1, by omega⟩
    have hj' : rowOffset (vy + 1) r = j := by rw [rowOffset_succ h]; omega
    simp [spriteCovers, hr, hj, hj']

theorem spriteCovers_rest_firstRow (vx vy : Nat) (bs : List Byte) (hlen : bs.length < 32) (c : Fin 64) :
    spriteCovers vx (vy + 1) bs (displayRow vy) c = false := by
  have h : rowOffset (vy + 1) (displayRow vy) = 31 :=
    rowOffset_succ_of_zero ((rowOffset_zero_iff vy _).2 rfl)
  have : ¬ 31 < bs.length := by omega
  simp [spriteCovers, h, this]

/-- A whole sprite drawn: a cell is inverted exactly where a 1 covers it, and there is a collision exactly
if a cell that was lit is covered by a 1 (rules R144, R145). -/
theorem drawRows_spec (rows : List Byte) (k : Canvas) (vx vy : Nat) (hlen : rows.length ≤ 32) :
    (∀ r c, (k.drawRows vx vy rows).disp.cell r c = (k.disp.cell r c ^^ spriteCovers vx vy rows r c)) ∧
    ((k.drawRows vx vy rows).collision = true ↔
      k.collision = true ∨ ∃ r c, spriteCovers vx vy rows r c = true ∧ k.disp.cell r c = true) := by
  induction rows generalizing k vy with
  | nil => simp [Canvas.drawRows, spriteCovers]
  | cons b bs ih =>
    simp only [List.length_cons] at hlen
    obtain ⟨ihc, ihf⟩ := ih (k.drawRow vx vy b) (vy + 1) (by omega)
    obtain ⟨rc, rf⟩ := drawRow_spec k vx vy b
    simp only [Canvas.drawRows]
    constructor
    · intro r c
      rw [ihc, rc, spriteCovers_cons vx vy b bs]
      by_cases hr : r = displayRow vy
      · subst hr
        simp [spriteCovers_rest_firstRow vx vy bs (by omega)]
      · simp [hr]
    · rw [ihf, rf]
      constructor
      · rintro ((h | ⟨c, h1, h2⟩) | ⟨r, c, h1, h2⟩)
        · exact .inl h
        · exact .inr ⟨displayRow vy, c, by simp [spriteCovers_cons vx vy b bs, h1], h2⟩
        · have hr : r ≠ displayRow vy := fun e => by
            rw [e, spriteCovers_rest_firstRow vx vy bs (by omega)] at h1
            cases h1
          refine .inr ⟨r, c, by simp [spriteCovers_cons vx vy b bs, hr, h1], ?_⟩
          rw [rc] at h2
          simpa [hr] using h2
      · rintro (h | ⟨r, c, h1, h2⟩)
        · exact .inl (.inl h)
        · rw [spriteCovers_cons vx vy b bs] at h1
          by_cases hr : r = displayRow vy
          · subst hr
            exact .inl (.inr ⟨c, by simpa using h1, h2⟩)
          · refine .inr ⟨r, c, by simpa [hr] using h1, ?_⟩
            rw [rc]
            simpa [hr] using h2

/-- The cells a sprite covers, by sprite position (rules R142, R143). -/
theorem spriteCovers_iff (vx vy : Nat) (rows : List Byte) (hlen : rows.length ≤ 32) (r : Fin 32)
    (c : Fin 64) :
    spriteCovers vx vy rows r c = true ↔
      ∃ j k, j < rows.length ∧ k < 8 ∧ r = displayRow (vy + j) ∧ c = displayCol (vx + k) ∧
        (rows.getD j 0).getLsbD (7 - k) = true := by
  simp only [spriteCovers, rowCovers, Bool.and_eq_true, decide_eq_true_eq]
  constructor
  · rintro ⟨h1, h2, h3⟩
    exact ⟨_, _, h1, h2, (rowOffset_eq_iff vy r _ (by omega)).1 rfl,
      (colOffset_eq_iff vx c _ (by omega)).1 rfl, h3⟩
  · rintro ⟨j, k, hj, hk, hr, hc, hb⟩
    rw [(rowOffset_eq_iff vy r j (by omega)).2 hr, (colOffset_eq_iff vx c k (by omega)).2 hc]
    exact ⟨hj, hk, hb⟩

end Sys2Proof.Machine
end

