-- ==== Sys2Proof/Laws/Exec.lean ====
section
/-! SUPPORT. The outcome of each instruction that can fault or wait, by case. The others answer next on
every path, by definition. -/

namespace Sys2Proof.Machine

/-! ### Call and return -/

theorem exec2NNN_of_lt {s : State} (h : s.sp.val < 16) (nnn : Addr12) :
    exec2NNN nnn s =
      .next (((s.setStack ⟨s.sp.val, h⟩ s.pc).setSp ⟨s.sp.val + 1, Nat.succ_lt_succ h⟩).setPc
        (absolute nnn)) := by
  simp [exec2NNN, push_of_lt h]

theorem exec2NNN_of_full {s : State} (h : s.sp.val = 16) (nnn : Addr12) :
    exec2NNN nnn s = raise .stackOverflow s := by
  simp [exec2NNN, push_of_full h]

theorem exec00EE_of_pos {s : State} (h : 0 < s.sp.val) :
    exec00EE s =
      .next ((s.setSp ⟨s.sp.val - 1, by omega⟩).setPc (s.stack[s.sp.val - 1]'(by omega) + 2)) := by
  simp [exec00EE, pop_of_pos h]

theorem exec00EE_of_empty {s : State} (h : s.sp.val = 0) : exec00EE s = raise .stackUnderflow s := by
  simp [exec00EE, pop_of_empty h]

/-! ### Stores and loads at `I` -/

theorem storeAtI_of_inRange {s : State} {bs : List Byte} (h : s.i.toNat + bs.length ≤ 0x1000) :
    storeAtI bs s = .next (s.setMem (Memory.writeBytes s.mem s.i.toNat bs)).advance := by
  simp [storeAtI, storeBytes_of_inRange h]

theorem storeAtI_of_outOfRange {s : State} {bs : List Byte} (h0 : bs ≠ [])
    (h : 0x1000 < s.i.toNat + bs.length) : storeAtI bs s = raise .addressOutOfRange s := by
  simp [storeAtI, storeBytes_of_outOfRange h0 h]

/-- What storing at `I` can do: change the memory and move on, the access being in range, or fault with
nothing changed. -/
theorem storeAtI_cases {bs : List Byte} (hne : bs ≠ []) (s : State) :
    (s.i.toNat + bs.length ≤ 0x1000 ∧
      storeAtI bs s = .next (s.setMem (Memory.writeBytes s.mem s.i.toNat bs)).advance) ∨
    (0x1000 < s.i.toNat + bs.length ∧ storeAtI bs s = raise .addressOutOfRange s) := by
  by_cases h : s.i.toNat + bs.length ≤ 0x1000
  · exact .inl ⟨h, storeAtI_of_inRange h⟩
  · exact .inr ⟨by omega, storeAtI_of_outOfRange hne (by omega)⟩

theorem decimalDigits_ne_nil (b : Byte) : decimalDigits b ≠ [] := by simp [decimalDigits]

theorem execFX65_of_inRange {s : State} {x : RegIdx} (h : s.i.toNat + x.val ≤ 0xFFF) :
    execFX65 x s = .next (s.loadRegs 0 (Memory.readBytes s.mem s.i.toNat (x.val + 1))).advance := by
  have : s.loadBytes s.i.toNat (x.val + 1) = _ := loadBytes_of_inRange (.inr (by omega))
  simp [execFX65, this]

theorem execFX65_of_outOfRange {s : State} {x : RegIdx} (h : 0xFFF < s.i.toNat + x.val) :
    execFX65 x s = raise .addressOutOfRange s := by
  have : s.loadBytes s.i.toNat (x.val + 1) = none := loadBytes_of_outOfRange (by omega) (by omega)
  simp [execFX65, this]

/-! ### Draw -/

/-- The canvas a draw starts from, filled with the sprite at `I`. -/
def State.drawn (s : State) (x y : RegIdx) (n : Nat) : Canvas :=
  Canvas.drawRows ⟨s.disp, false⟩ (s.readV x).toNat (s.readV y).toNat (Memory.readBytes s.mem s.i.toNat n)

theorem execDXYN_of_inRange {s : State} {n : Nat} (h : n = 0 ∨ s.i.toNat + n ≤ 0x1000) (x y : RegIdx) :
    execDXYN x y n s =
      .next (((s.writeV vF (flagByte (s.drawn x y n).collision)).setDisp
        (s.drawn x y n).disp).setNeedDraw true).advance := by
  have : s.loadBytes s.i.toNat n = _ := loadBytes_of_inRange h
  simp [execDXYN, this, State.drawn]

theorem execDXYN_of_outOfRange {s : State} {n : Nat} (h0 : 0 < n) (h : 0x1000 < s.i.toNat + n)
    (x y : RegIdx) : execDXYN x y n s = raise .addressOutOfRange s := by
  have : s.loadBytes s.i.toNat n = none := loadBytes_of_outOfRange h0 h
  simp [execDXYN, this]

/-! ### Keys -/

theorem execEX9E_of_lt {s : State} {x : RegIdx} (h : (s.readV x).toNat < 16) :
    execEX9E x s = .next (s.skipIf (s.keyDown ⟨(s.readV x).toNat, h⟩)) := by
  simp [execEX9E, keyIndex_of_lt h]

theorem execEX9E_of_ge {s : State} {x : RegIdx} (h : 16 ≤ (s.readV x).toNat) :
    execEX9E x s = raise .keyIndexOutOfRange s := by
  simp [execEX9E, keyIndex_of_ge h]

theorem execEXA1_of_lt {s : State} {x : RegIdx} (h : (s.readV x).toNat < 16) :
    execEXA1 x s = .next (s.skipIf (!s.keyDown ⟨(s.readV x).toNat, h⟩)) := by
  simp [execEXA1, keyIndex_of_lt h]

theorem execEXA1_of_ge {s : State} {x : RegIdx} (h : 16 ≤ (s.readV x).toNat) :
    execEXA1 x s = raise .keyIndexOutOfRange s := by
  simp [execEXA1, keyIndex_of_ge h]

/-- The lowest pressed key is pressed, and no lower one is (rule R152). -/
theorem lowestKey_eq_some {s : State} {k : Fin 16} :
    s.lowestKey = some k ↔ s.keyDown k = true ∧ ∀ j < k, s.keyDown j = false := by
  simp only [State.lowestKey, List.find?_eq_some_iff_getElem, List.length_finRange, Bool.not_eq_true',
    List.getElem_finRange]
  constructor
  · rintro ⟨hk, n, hn, rfl, hj⟩
    refine ⟨hk, fun j hjk => ?_⟩
    have := hj j.val hjk
    simpa using this
  · rintro ⟨hk, hj⟩
    exact ⟨hk, k.val, k.isLt, rfl, fun j hjk => hj _ (by simpa [Fin.lt_def] using hjk)⟩

theorem lowestKey_eq_none {s : State} : s.lowestKey = none ↔ ∀ k, s.keyDown k = false := by
  simp [State.lowestKey, List.find?_eq_none]

@[simp] theorem lowestKey_setWaitInput (s : State) (b : Bool) : (s.setWaitInput b).lowestKey = s.lowestKey :=
  rfl

theorem execFX0A_of_none {s : State} (h : s.lowestKey = none) (x : RegIdx) :
    execFX0A x s = .next (s.setWaitInput true) := by
  simp [execFX0A, h]

theorem execFX0A_of_some {s : State} {k : Fin 16} (h : s.lowestKey = some k) (x : RegIdx) :
    execFX0A x s =
      .next ((((s.setWaitInput true).writeV x (BitVec.ofNat 8 k.val)).setWaitInput false)).advance := by
  simp [execFX0A, h]

/-! ### No instruction is refused -/

theorem exec_ne_refused (i : Instr) (s : State) (r : Refusal) : exec i s ≠ .refused r := by
  cases i <;> simp only [exec] <;>
    first
      | (simp [exec00E0, exec1NNN, execBNNN, exec3XNN, exec4XNN, exec5XY0, exec9XY0, exec6XNN, exec7XNN,
          exec8XY0, exec8XY1, exec8XY2, exec8XY3, exec8XY4, exec8XY5, exec8XY6, exec8XY7, exec8XYE, execANNN,
          execCXNN, execFX07, execFX15, execFX18, execFX1E, execFX29, setRegister, flagThenResult]; done)
      | (simp only [exec00EE, exec2NNN, execFX33, execFX55, storeAtI, execFX65, execDXYN, execEX9E, execEXA1,
          execFX0A]
         split <;> simp)

end Sys2Proof.Machine
end

