-- ==== Sys2Proof/Laws/Step.lean ====
section
/-! SUPPORT. What a `Step` can do, said once: the state the handler is given, and the three ways a `Step`
goes (rule R84). -/

namespace Sys2Proof.Machine

/-! ### The state before the fetch -/

section
variable (s : State) (tickEn : Bool) (rand : Byte)

@[simp] theorem beginStep_v : (s.beginStep tickEn rand).v = s.v := by cases tickEn <;> rfl
@[simp] theorem beginStep_i : (s.beginStep tickEn rand).i = s.i := by cases tickEn <;> rfl
@[simp] theorem beginStep_pc : (s.beginStep tickEn rand).pc = s.pc := by cases tickEn <;> rfl
@[simp] theorem beginStep_sp : (s.beginStep tickEn rand).sp = s.sp := by cases tickEn <;> rfl
@[simp] theorem beginStep_stack : (s.beginStep tickEn rand).stack = s.stack := by cases tickEn <;> rfl
@[simp] theorem beginStep_mem : (s.beginStep tickEn rand).mem = s.mem := by cases tickEn <;> rfl
@[simp] theorem beginStep_disp : (s.beginStep tickEn rand).disp = s.disp := by cases tickEn <;> rfl
@[simp] theorem beginStep_keys : (s.beginStep tickEn rand).keys = s.keys := by cases tickEn <;> rfl
@[simp] theorem beginStep_waitInput : (s.beginStep tickEn rand).waitInput = s.waitInput := by
  cases tickEn <;> rfl
@[simp] theorem beginStep_needDraw : (s.beginStep tickEn rand).needDraw = s.needDraw := by
  cases tickEn <;> rfl
@[simp] theorem beginStep_ir : (s.beginStep tickEn rand).ir = s.ir := by cases tickEn <;> rfl
@[simp] theorem beginStep_env : (s.beginStep tickEn rand).env =
    { tickEn := tickEn, rand := rand, stepIndex := s.env.stepIndex + 1 } := by cases tickEn <;> rfl
@[simp] theorem beginStep_readV (r : RegIdx) : (s.beginStep tickEn rand).readV r = s.readV r := by
  cases tickEn <;> rfl
@[simp] theorem beginStep_byteAt (a : Nat) : (s.beginStep tickEn rand).byteAt a = s.byteAt a := by
  cases tickEn <;> rfl
@[simp] theorem beginStep_keyDown (k : Fin 16) : (s.beginStep tickEn rand).keyDown k = s.keyDown k := by
  cases tickEn <;> rfl
@[simp] theorem beginStep_fetchWord : (s.beginStep tickEn rand).fetchWord = s.fetchWord :=
  fetchWord_congr (by simp) (by simp)

/-- The delay timer the handler sees (rules R72, R73). -/
@[simp] theorem beginStep_dt_toNat :
    (s.beginStep tickEn rand).dt.toNat = if tickEn then s.dt.toNat - 1 else s.dt.toNat := by
  cases tickEn
  · rfl
  · exact tickTimer_toNat s.dt

/-- The sound timer the handler leaves in place (rules R72, R73). -/
@[simp] theorem beginStep_st_toNat :
    (s.beginStep tickEn rand).st.toNat = if tickEn then s.st.toNat - 1 else s.st.toNat := by
  cases tickEn
  · rfl
  · exact tickTimer_toNat s.st

end

/-! ### The three ways a `Step` goes -/

/-- The word at `PC`. -/
def State.wordAtPc (s : State) : Word := wordOfBytes (s.byteAt s.pc.toNat) (s.byteAt (s.pc.toNat + 1))

theorem stepWith_of_fetchFault {s : State} (h : 0xFFE < s.pc.toNat) (tickEn : Bool) (rand : Byte) :
    stepWith tickEn rand s = raise .addressOutOfRange (s.beginStep tickEn rand) := by
  simp [stepWith, fetchWord_of_gt h]

theorem stepWith_of_fetched {s : State} (h : s.pc.toNat ≤ 0xFFE) (tickEn : Bool) (rand : Byte) :
    stepWith tickEn rand s = decodeAndExec s.wordAtPc ((s.beginStep tickEn rand).setIr s.wordAtPc) := by
  simp [stepWith, fetchWord_of_le h, State.wordAtPc]

theorem stepWith_of_decoded {s : State} (h : s.pc.toNat ≤ 0xFFE) {i : Instr}
    (hi : decodeWord s.wordAtPc = .ok i) (tickEn : Bool) (rand : Byte) :
    stepWith tickEn rand s = exec i ((s.beginStep tickEn rand).setIr s.wordAtPc) := by
  simp [stepWith_of_fetched h, decodeAndExec, hi]

theorem stepWith_of_unknown {s : State} (h : s.pc.toNat ≤ 0xFFE) {e : DecodeError}
    (hi : decodeWord s.wordAtPc = .error e) (tickEn : Bool) (rand : Byte) :
    stepWith tickEn rand s = raise .unknownOpcode ((s.beginStep tickEn rand).setIr s.wordAtPc) := by
  simp [stepWith_of_fetched h, decodeAndExec, hi]

/-- Every `Step` goes one of three ways (rule R84). -/
theorem stepWith_cases (s : State) (tickEn : Bool) (rand : Byte) :
    (0xFFE < s.pc.toNat ∧ stepWith tickEn rand s = raise .addressOutOfRange (s.beginStep tickEn rand)) ∨
    (s.pc.toNat ≤ 0xFFE ∧ (∃ e, decodeWord s.wordAtPc = .error e) ∧
      stepWith tickEn rand s = raise .unknownOpcode ((s.beginStep tickEn rand).setIr s.wordAtPc)) ∨
    (s.pc.toNat ≤ 0xFFE ∧ ∃ i, decodeWord s.wordAtPc = .ok i ∧
      stepWith tickEn rand s = exec i ((s.beginStep tickEn rand).setIr s.wordAtPc)) := by
  by_cases h : s.pc.toNat ≤ 0xFFE
  · refine .inr ?_
    match hd : decodeWord s.wordAtPc with
    | .error e => exact .inl ⟨h, ⟨e, rfl⟩, stepWith_of_unknown h hd tickEn rand⟩
    | .ok i => exact .inr ⟨h, i, rfl, stepWith_of_decoded h hd tickEn rand⟩
  · exact .inl ⟨by omega, stepWith_of_fetchFault (by omega) tickEn rand⟩

/-- `step` is a `Step` with the inputs `env` gives. -/
theorem step_eq (s : State) : step s = stepWith s.env.tickEn (Config.randByte s.env.stepIndex) s := rfl

/-! ### Host moves -/

theorem applyMoves_append (s : State) (ms ms' : List HostMove) :
    applyMoves s (ms ++ ms') = applyMoves (applyMoves s ms) ms' := by
  induction ms generalizing s with
  | nil => rfl
  | cons m ms ih => simp [applyMoves, ih]

/-- An invariant that holds at reset and that every host move keeps holds after any sequence of them. -/
theorem applyMoves_invariant {P : State → Prop} (hmove : ∀ s m, P s → P (applyMove s m)) (s : State)
    (h : P s) (ms : List HostMove) : P (applyMoves s ms) := by
  induction ms generalizing s with
  | nil => exact h
  | cons m ms ih => exact ih (applyMove s m) (hmove s m h)

end Sys2Proof.Machine
end

