-- ==== Sys2Proof/Laws/Frame.lean ====
section
/-! SUPPORT. What the updates of a state leave unchanged, as the frames of Safety.lean say it, so that a
frame of an instruction is put together from the frames of its updates. -/

namespace Sys2Proof.Machine

variable {s t u : State}

/-! ### The frame as a relation -/

theorem ChangesOnly.refl (parts : List Part) (s : State) : ChangesOnly parts s s := by
  intro p _
  cases p <;> simp [Part.Same]

theorem ChangesOnly.mono {ps qs : List Part} (h : ChangesOnly ps s t) (hsub : ∀ p ∈ ps, p ∈ qs) :
    ChangesOnly qs s t :=
  fun p hp => h p (fun hq => hp (hsub p hq))

theorem Part.Same.trans {p : Part} (h : p.Same s t) (h' : p.Same t u) : p.Same s u := by
  cases p <;> simp_all [Part.Same]

theorem ChangesOnly.trans {ps : List Part} (h : ChangesOnly ps s t) (h' : ChangesOnly ps t u) :
    ChangesOnly ps s u :=
  fun p hp => (h p hp).trans (h' p hp)

/-- Two frames in a row. -/
theorem ChangesOnly.append {ps qs : List Part} (h : ChangesOnly ps s t) (h' : ChangesOnly qs t u) :
    ChangesOnly (ps ++ qs) s u :=
  (h.mono (fun _ hp => List.mem_append_left qs hp)).trans (h'.mono (fun _ hp => List.mem_append_right ps hp))

/-! ### The frame of each update -/

theorem changesOnly_writeV (s : State) (x : RegIdx) (b : Byte) : ChangesOnly [.v] s (s.writeV x b) := by
  intro p hp; cases p <;> simp_all [Part.Same]

theorem changesOnly_setI (s : State) (w : Word) : ChangesOnly [.i] s (s.setI w) := by
  intro p hp; cases p <;> simp_all [Part.Same]

theorem changesOnly_setPc (s : State) (w : Word) : ChangesOnly [.pc] s (s.setPc w) := by
  intro p hp; cases p <;> simp_all [Part.Same]

theorem changesOnly_advance (s : State) : ChangesOnly [.pc] s s.advance := changesOnly_setPc s _

theorem changesOnly_skipIf (s : State) (c : Bool) : ChangesOnly [.pc] s (s.skipIf c) := changesOnly_setPc s _

theorem changesOnly_setSp (s : State) (n : Fin 17) : ChangesOnly [.sp] s (s.setSp n) := by
  intro p hp; cases p <;> simp_all [Part.Same]

theorem changesOnly_setStack (s : State) (k : Fin 16) (w : Word) : ChangesOnly [.stack] s (s.setStack k w) := by
  intro p hp; cases p <;> simp_all [Part.Same]

theorem changesOnly_setDt (s : State) (b : Byte) : ChangesOnly [.dt] s (s.setDt b) := by
  intro p hp; cases p <;> simp_all [Part.Same]

theorem changesOnly_setSt (s : State) (b : Byte) : ChangesOnly [.st] s (s.setSt b) := by
  intro p hp; cases p <;> simp_all [Part.Same]

theorem changesOnly_setMem (s : State) (m : Cells) : ChangesOnly [.mem] s (s.setMem m) := by
  intro p hp; cases p <;> simp_all [Part.Same]

theorem changesOnly_setDisp (s : State) (d : Display) : ChangesOnly [.disp] s (s.setDisp d) := by
  intro p hp; cases p <;> simp_all [Part.Same]

theorem changesOnly_setKey (s : State) (k : Fin 16) (b : Bool) : ChangesOnly [.keys] s (s.setKey k b) := by
  intro p hp; cases p <;> simp_all [Part.Same]

theorem changesOnly_setWaitInput (s : State) (b : Bool) : ChangesOnly [.waitInput] s (s.setWaitInput b) := by
  intro p hp; cases p <;> simp_all [Part.Same]

theorem changesOnly_setNeedDraw (s : State) (b : Bool) : ChangesOnly [.needDraw] s (s.setNeedDraw b) := by
  intro p hp; cases p <;> simp_all [Part.Same]

theorem changesOnly_setIr (s : State) (w : Word) : ChangesOnly [.ir] s (s.setIr w) := by
  intro p hp; cases p <;> simp_all [Part.Same]

theorem changesOnly_setEnv (s : State) (e : Env) : ChangesOnly [.env] s (s.setEnv e) := by
  intro p hp; cases p <;> simp_all [Part.Same]

theorem changesOnly_loadRegs (s : State) (k : Nat) (bs : List Byte) : ChangesOnly [.v] s (s.loadRegs k bs) := by
  induction bs generalizing s k with
  | nil => exact .refl _ _
  | cons b bs ih => exact (changesOnly_writeV s _ b).trans (ih _ _)

theorem changesOnly_timerTick (s : State) : ChangesOnly [.dt, .st] s s.timerTick :=
  (changesOnly_setDt s _).append (changesOnly_setSt _ _)

theorem changesOnly_beginStep (s : State) (tickEn : Bool) (rand : Byte) :
    ChangesOnly [.dt, .st, .env] s (s.beginStep tickEn rand) := by
  intro p hp; cases p <;> simp_all [Part.Same]

/-! ### The program counter -/

theorem pcAdvances_advance (s : State) : PcAdvances 2 s s.advance := by
  simp [PcAdvances, State.advance, BitVec.toNat_add]

theorem pcAdvances_skipIf (s : State) (c : Bool) : PcAdvances (if c then 4 else 2) s (s.skipIf c) := by
  cases c <;> simp [PcAdvances, State.skipIf, BitVec.toNat_add]

/-! ### The state a handler is given (rule R84) -/

/-- The state after the tick and the fetch of a word. -/
abbrev State.handed (s : State) (tickEn : Bool) (rand : Byte) (w : Word) : State :=
  (s.beginStep tickEn rand).setIr w

theorem changesOnly_handed (s : State) (tickEn : Bool) (rand : Byte) (w : Word) :
    ChangesOnly [.dt, .st, .ir, .env] s (s.handed tickEn rand w) :=
  ((changesOnly_beginStep s tickEn rand).append (changesOnly_setIr _ w)).mono (by decide)

/-- What a `Step` does where the word at `PC` is an instruction. -/
theorem stepWith_of_aboutToRun {i : Instr} (h : s.AboutToRun i) (tickEn : Bool) (rand : Byte) :
    stepWith tickEn rand s = exec i (s.handed tickEn rand s.wordAtPc) :=
  stepWith_of_decoded h.inMemory h.decodes tickEn rand

/-! ### The shared operations, whole -/

/-- What loading a register does. -/
theorem setRegister_spec (s : State) (x : RegIdx) (b : Byte) :
    ∃ t, setRegister s x b = .next t ∧ t.readV x = b ∧ ChangesOnlyRegs [x] s t ∧ PcAdvances 2 s t ∧
      ChangesOnly [.v, .pc] s t := by
  refine ⟨_, rfl, by simp, fun r hr => ?_, pcAdvances_advance _,
    (changesOnly_writeV s _ _).append (changesOnly_advance _)⟩
  simp only [List.mem_singleton] at hr
  simp [readV_writeV, hr]

/-- What the flag-writing shape does (rule R123): the result is computed with the new flag in place. -/
theorem flagThenResult_spec (s : State) (x : RegIdx) (flag result : State → Byte) :
    ∃ t, flagThenResult s x flag result = .next t ∧ t.readV x = result (s.writeV vF (flag s)) ∧
      (x ≠ vF → t.readV vF = flag s) ∧ ChangesOnlyRegs [x, vF] s t ∧ PcAdvances 2 s t ∧
      ChangesOnly [.v, .pc] s t := by
  refine ⟨_, rfl, by simp, fun h => by simp [readV_writeV, Ne.symm h], fun r hr => ?_, pcAdvances_advance _,
    (((changesOnly_writeV s _ _).append (changesOnly_writeV _ _ _)).append (changesOnly_advance _)).mono
      (by decide)⟩
  simp only [List.mem_cons, List.not_mem_nil, or_false, not_or] at hr
  simp [readV_writeV, hr.1, hr.2]

/-- What a store at `I` leaves in each byte. -/
theorem byteAt_storedAtI {s : State} {bs : List Byte} (hwf : Memory.wf s.mem = true)
    (h : s.i.toNat + bs.length ≤ 0x1000) (a : Nat) :
    ((s.setMem (Memory.writeBytes s.mem s.i.toNat bs)).advance).byteAt a =
      if hk : s.i.toNat ≤ a ∧ a < s.i.toNat + bs.length then bs[a - s.i.toNat]'(by omega)
      else s.byteAt a :=
  Memory.read_writeBytes hwf (fun _ => h) a

/-- Every handler goes on or faults. -/
theorem exec_next_or_fault (i : Instr) (s : State) :
    (∃ t, exec i s = .next t) ∨ (∃ f, exec i s = .fault f) := by
  match h : exec i s with
  | .next t => exact .inl ⟨t, rfl⟩
  | .fault f => exact .inr ⟨f, rfl⟩
  | .refused r => exact absurd h (exec_ne_refused i s r)

/-! ### Sprites -/

/-- The loops cover the cells SpriteCovers says (rules R142, R143). -/
theorem spriteCovers_at_I (s : State) (x y : RegIdx) {n : Nat} (hn : n ≤ 32) (r : Fin 32) (c : Fin 64) :
    spriteCovers (s.readV x).toNat (s.readV y).toNat (Memory.readBytes s.mem s.i.toNat n) r c = true ↔
      SpriteCovers s x y n r c := by
  rw [spriteCovers_iff _ _ _ (by simpa using hn)]
  simp only [SpriteCovers, displayRow, displayCol, Fin.ext_iff, Memory.length_readBytes]
  have hget : ∀ j, j < n → (Memory.readBytes s.mem s.i.toNat n).getD j 0 = s.byteAt (s.effAddr j) := by
    intro j hj
    rw [List.getD_eq_getElem?_getD, List.getElem?_eq_getElem (by simpa using hj), Option.getD_some,
      Memory.getElem_readBytes _ _ _ _ hj]
    rfl
  constructor
  · rintro ⟨j, k, hj, hk, hr, hc, hb⟩
    exact ⟨j, k, hj, hk, hr, hc, hget j hj ▸ hb⟩
  · rintro ⟨j, k, hj, hk, hr, hc, hb⟩
    exact ⟨j, k, hj, hk, hr, hc, by rw [hget j hj]; exact hb⟩

/-- The sprite at `I` drawn: every cell, and the detector. -/
theorem drawn_spec (s : State) (x y : RegIdx) {n : Nat} (hn : n ≤ 32) :
    (∀ r c, (s.drawn x y n).disp.cell r c =
      (s.disp.cell r c ^^
        spriteCovers (s.readV x).toNat (s.readV y).toNat (Memory.readBytes s.mem s.i.toNat n) r c)) ∧
    ((s.drawn x y n).collision = true ↔ ∃ r c, SpriteCovers s x y n r c ∧ s.disp.cell r c = true) := by
  obtain ⟨h1, h2⟩ := drawRows_spec (Memory.readBytes s.mem s.i.toNat n) ⟨s.disp, false⟩
    (s.readV x).toNat (s.readV y).toNat (by simpa using hn)
  refine ⟨h1, ?_⟩
  rw [State.drawn, h2]
  simp [spriteCovers_at_I s x y hn]

end Sys2Proof.Machine
end

