-- ==== Sys2Proof/Laws/PerInstr.lean ====
section
/-! SUPPORT. Statements made of every instruction as syntax, one lemma a constructor: the encoded word has
the fixed bits of the instruction's row of the opcode map (30_encoding.md rules R56, R62). -/

namespace Sys2Proof.Laws.EncodeMatchesRow

/-- The word of an instruction agrees with its row under the row's mask. -/
def Statement (i : Instr) : Prop := i.row.Matches (encode i)

theorem op00E0 : Statement .op00E0 := by unfold Statement; decide
theorem op00EE : Statement .op00EE := by unfold Statement; decide

theorem op1NNN (nnn : Addr12) : Statement (.op1NNN nnn) := formatNNN_and_F000 _ nnn
theorem op2NNN (nnn : Addr12) : Statement (.op2NNN nnn) := formatNNN_and_F000 _ nnn
theorem opANNN (nnn : Addr12) : Statement (.opANNN nnn) := formatNNN_and_F000 _ nnn
theorem opBNNN (nnn : Addr12) : Statement (.opBNNN nnn) := formatNNN_and_F000 _ nnn
theorem op3XNN (x : RegIdx) (nn : Byte) : Statement (.op3XNN x nn) := formatXNN_and_F000 _ x nn
theorem op4XNN (x : RegIdx) (nn : Byte) : Statement (.op4XNN x nn) := formatXNN_and_F000 _ x nn
theorem op6XNN (x : RegIdx) (nn : Byte) : Statement (.op6XNN x nn) := formatXNN_and_F000 _ x nn
theorem op7XNN (x : RegIdx) (nn : Byte) : Statement (.op7XNN x nn) := formatXNN_and_F000 _ x nn
theorem opCXNN (x : RegIdx) (nn : Byte) : Statement (.opCXNN x nn) := formatXNN_and_F000 _ x nn
theorem op5XY0 (x y : RegIdx) : Statement (.op5XY0 x y) := formatXYN_and_F00F _ x y _
theorem op9XY0 (x y : RegIdx) : Statement (.op9XY0 x y) := formatXYN_and_F00F _ x y _
theorem op8XY0 (x y : RegIdx) : Statement (.op8XY0 x y) := formatXYN_and_F00F _ x y _
theorem op8XY1 (x y : RegIdx) : Statement (.op8XY1 x y) := formatXYN_and_F00F _ x y _
theorem op8XY2 (x y : RegIdx) : Statement (.op8XY2 x y) := formatXYN_and_F00F _ x y _
theorem op8XY3 (x y : RegIdx) : Statement (.op8XY3 x y) := formatXYN_and_F00F _ x y _
theorem op8XY4 (x y : RegIdx) : Statement (.op8XY4 x y) := formatXYN_and_F00F _ x y _
theorem op8XY5 (x y : RegIdx) : Statement (.op8XY5 x y) := formatXYN_and_F00F _ x y _
theorem op8XY6 (x y : RegIdx) : Statement (.op8XY6 x y) := formatXYN_and_F00F _ x y _
theorem op8XY7 (x y : RegIdx) : Statement (.op8XY7 x y) := formatXYN_and_F00F _ x y _
theorem op8XYE (x y : RegIdx) : Statement (.op8XYE x y) := formatXYN_and_F00F _ x y _
theorem opDXYN (x y : RegIdx) (n : Nat) : Statement (.opDXYN x y n) := formatXYN_and_F000 _ x y _
theorem opEX9E (x : RegIdx) : Statement (.opEX9E x) := formatXNN_and_F0FF _ x _
theorem opEXA1 (x : RegIdx) : Statement (.opEXA1 x) := formatXNN_and_F0FF _ x _
theorem opFX07 (x : RegIdx) : Statement (.opFX07 x) := formatXNN_and_F0FF _ x _
theorem opFX15 (x : RegIdx) : Statement (.opFX15 x) := formatXNN_and_F0FF _ x _
theorem opFX18 (x : RegIdx) : Statement (.opFX18 x) := formatXNN_and_F0FF _ x _
theorem opFX0A (x : RegIdx) : Statement (.opFX0A x) := formatXNN_and_F0FF _ x _
theorem opFX1E (x : RegIdx) : Statement (.opFX1E x) := formatXNN_and_F0FF _ x _
theorem opFX29 (x : RegIdx) : Statement (.opFX29 x) := formatXNN_and_F0FF _ x _
theorem opFX33 (x : RegIdx) : Statement (.opFX33 x) := formatXNN_and_F0FF _ x _
theorem opFX55 (x : RegIdx) : Statement (.opFX55 x) := formatXNN_and_F0FF _ x _
theorem opFX65 (x : RegIdx) : Statement (.opFX65 x) := formatXNN_and_F0FF _ x _

end Sys2Proof.Laws.EncodeMatchesRow
end

