-- ==== Sys2Proof/Tests/Slice0.lean ====
section
/-! SUPPORT. The model's own tests. Expected values are the spec's: 30_encoding.md rule R62 and section 5 for
decoding, 95_test_vectors.md for one-step results; a vector's section stands above it. The witness theorems
show, for each statement of Certificates/Slice0/Obligations.lean that has hypotheses, a state and operands that
meet them, at the boundary of each range. -/

namespace Sys2Proof.Tests

open Sys2Proof Sys2Proof.Machine

/-! ### Helpers -/

/-- The state and the result after one `Step` with the tick and `rand`, the word placed where it is
fetched. -/
def ran (s : State) (w : Nat) (tickEn : Bool := true) (rand : Byte := 0) : State × StepResult :=
  stateAndResult s (stepWith tickEn rand (s.withFetchWord 16 w))

/-- The `Step` ended well, in a state with this property. -/
def ok (s : State) (w : Nat) (p : State → Bool) (tickEn : Bool := true) (rand : Byte := 0) : Bool :=
  match ran s w tickEn rand with
  | (t, .ok) => p t
  | _ => false

/-- The `Step` ended in this fault, and left a state with this property. -/
def faults (s : State) (w : Nat) (c : FaultCause) (p : State → Bool) : Bool :=
  match ran s w with
  | (t, .fault d) => d == c && p t
  | _ => false

/-- The reset state with two registers loaded. -/
def with2 (x : RegIdx) (a : Byte) (y : RegIdx) (b : Byte) : State := (State.reset.writeV x a).writeV y b

/-- `V1` and `V2` loaded and `VF = 0x77` (95_test_vectors.md 2.4). -/
def alu (a b : Byte) : State := (with2 1 a 2 b).writeV vF 0x77

/-- `V1` and `VF` after a `Step`, as 2.4's table gives them. -/
def aluGives (s : State) (w : Nat) (v1 vf : Byte) : Bool :=
  ok s w fun t => t.readV 1 == v1 && t.readV vF == vf && t.pc == 0x202

/-- The reset state with one byte of memory stored. -/
def withByte (s : State) (a : Nat) (b : Byte) : State := s.setMem (Memory.write s.mem a b)

/-- These cells are lit. -/
def lit (s : State) (cells : List (Fin 32 × Fin 64)) : Bool := cells.all fun q => s.disp.cell q.1 q.2

/-- These cells are dark. -/
def dark (s : State) (cells : List (Fin 32 × Fin 64)) : Bool := cells.all fun q => !s.disp.cell q.1 q.2

/-! ### Ill-formed terms are refused -/

theorem test_wf_refuses_row_count_16 : ¬ (Instr.opDXYN 0 0 16).WellFormed := by decide
theorem test_wf_takes_row_count_15 : (Instr.opDXYN 15 15 15).WellFormed := by decide

/-! ### One word of each pattern, bit by bit (30_encoding.md rules R52, R62) -/

theorem test_decode_00E0 : decodeWord 0b0000_0000_1110_0000#16 = .ok .op00E0 := rfl
theorem test_decode_00EE : decodeWord 0b0000_0000_1110_1110#16 = .ok .op00EE := rfl
theorem test_decode_1NNN : decodeWord 0b0001_0010_0000_0000#16 = .ok (.op1NNN 0x200) := rfl
theorem test_decode_2NNN : decodeWord 0b0010_1010_1011_1100#16 = .ok (.op2NNN 0xABC) := rfl
theorem test_decode_3XNN : decodeWord 0b0011_1010_0001_1000#16 = .ok (.op3XNN 10 0x18) := rfl
theorem test_decode_4XNN : decodeWord 0b0100_1010_0001_1000#16 = .ok (.op4XNN 10 0x18) := rfl
theorem test_decode_5XY0 : decodeWord 0b0101_0001_0010_0000#16 = .ok (.op5XY0 1 2) := rfl
theorem test_decode_9XY0 : decodeWord 0b1001_0001_0010_0000#16 = .ok (.op9XY0 1 2) := rfl
theorem test_decode_6XNN : decodeWord 0b0110_1010_0001_1000#16 = .ok (.op6XNN 10 0x18) := rfl
theorem test_decode_7XNN : decodeWord 0b0111_1111_0000_0001#16 = .ok (.op7XNN 15 0x01) := rfl
theorem test_decode_8XY0 : decodeWord 0b1000_0001_0010_0000#16 = .ok (.op8XY0 1 2) := rfl
theorem test_decode_8XY1 : decodeWord 0b1000_0001_0010_0001#16 = .ok (.op8XY1 1 2) := rfl
theorem test_decode_8XY2 : decodeWord 0b1000_0001_0010_0010#16 = .ok (.op8XY2 1 2) := rfl
theorem test_decode_8XY3 : decodeWord 0b1000_0001_0010_0011#16 = .ok (.op8XY3 1 2) := rfl
theorem test_decode_8XY4 : decodeWord 0b1000_1111_0001_0100#16 = .ok (.op8XY4 15 1) := rfl
theorem test_decode_8XY5 : decodeWord 0b1000_0001_0010_0101#16 = .ok (.op8XY5 1 2) := rfl
theorem test_decode_8XY6 : decodeWord 0b1000_0001_0010_0110#16 = .ok (.op8XY6 1 2) := rfl
theorem test_decode_8XY7 : decodeWord 0b1000_0001_1111_0111#16 = .ok (.op8XY7 1 15) := rfl
theorem test_decode_8XYE : decodeWord 0b1000_0001_0010_1110#16 = .ok (.op8XYE 1 2) := rfl
theorem test_decode_ANNN : decodeWord 0b1010_1111_1111_1111#16 = .ok (.opANNN 0xFFF) := rfl
theorem test_decode_BNNN : decodeWord 0b1011_0011_0000_0000#16 = .ok (.opBNNN 0x300) := rfl
theorem test_decode_CXNN : decodeWord 0b1100_0001_0000_1111#16 = .ok (.opCXNN 1 0x0F) := rfl
theorem test_decode_DXYN : decodeWord 0b1101_0001_1111_0011#16 = .ok (.opDXYN 1 15 3) := rfl
theorem test_decode_EX9E : decodeWord 0b1110_0010_1001_1110#16 = .ok (.opEX9E 2) := rfl
theorem test_decode_EXA1 : decodeWord 0b1110_0010_1010_0001#16 = .ok (.opEXA1 2) := rfl
theorem test_decode_FX07 : decodeWord 0b1111_0001_0000_0111#16 = .ok (.opFX07 1) := rfl
theorem test_decode_FX15 : decodeWord 0b1111_0000_0001_0101#16 = .ok (.opFX15 0) := rfl
theorem test_decode_FX18 : decodeWord 0b1111_0100_0001_1000#16 = .ok (.opFX18 4) := rfl
theorem test_decode_FX0A : decodeWord 0b1111_0101_0000_1010#16 = .ok (.opFX0A 5) := rfl
theorem test_decode_FX1E : decodeWord 0b1111_0001_0001_1110#16 = .ok (.opFX1E 1) := rfl
theorem test_decode_FX29 : decodeWord 0b1111_0011_0010_1001#16 = .ok (.opFX29 3) := rfl
theorem test_decode_FX33 : decodeWord 0b1111_0100_0011_0011#16 = .ok (.opFX33 4) := rfl
theorem test_decode_FX55 : decodeWord 0b1111_0011_0101_0101#16 = .ok (.opFX55 3) := rfl
theorem test_decode_FX65 : decodeWord 0b1111_0100_0110_0101#16 = .ok (.opFX65 4) := rfl

/-! ### Words that are no instruction (95_test_vectors.md 2.1) -/

/-- The word is refused by name. -/
def unknown (w : Word) : Bool :=
  match decodeWord w with
  | .error (.unknownOpcode u) => u == w
  | _ => false

theorem test_unknown_family0 : ([0x0000, 0x00E1, 0x00EF, 0x01E0, 0x0FFF].all unknown) = true := by decide
theorem test_unknown_families_5_9 : ([0x5001, 0x512F, 0x9001].all unknown) = true := by decide
theorem test_unknown_family8 :
    ([0x8008, 0x8009, 0x800A, 0x800B, 0x800C, 0x800D, 0x800F].all unknown) = true := by decide
theorem test_unknown_families_E_F :
    ([0xE09F, 0xE000, 0xE0A0, 0xF000, 0xF0FF, 0xF166, 0xF175, 0xF185].all unknown) = true := by decide

/-- Too few bytes are refused too. -/
theorem test_decode_one_byte : decodeBytes [0x6A#8] = .error .tooFewBytes := rfl
/-- High byte first (2.2). -/
theorem test_decode_bytes_order : decodeBytes [0x6A#8, 0x18#8, 0xFF#8] = .ok (.op6XNN 10 0x18, [0xFF#8]) := rfl
theorem test_decodeTableWord : decodeTableWord 16 0xD123 = some (.opDXYN 1 2 3) := by decide
theorem test_decodeTableWord_refuses : decodeTableWord 16 0x5121 = none := by decide
theorem test_encode : encode (.opDXYN 1 2 3) = 0xD123#16 ∧ encode (.opFX65 15) = 0xFF65#16 := by decide

/-- The step function runs a placed word as the first instruction after reset (S7), whatever the free
random byte. -/
theorem test_step_runs_placed_word :
    (match step (State.reset.withFetchWord 16 0x6A18) with
      | .next t => t.readV 10 == 0x18 && t.pc == 0x202 && t.ir == 0x6A18
      | _ => false) = true := by decide
/-- With `PC` past the last fetchable word the placed word goes to the program base (log entry 13). -/
theorem test_step_runs_placed_word_past_end :
    (match step ((State.reset.setPc 0xFFF).withFetchWord 16 0x1ABC) with
      | .next t => t.pc == 0xABC
      | _ => false) = true := by decide


/-! ### Fetch (95_test_vectors.md 2.2) -/

theorem test_fetch_at_FFE :
    ok (State.reset.setPc 0xFFE) 0x6000 (fun t => t.pc == 0x1000) = true := by decide
/-- No fetch at 0xFFF: the tick is kept, `IR` stays. -/
theorem test_fetch_at_FFF :
    (let r := stateAndResult State.reset (stepWith true 0 ((State.reset.setPc 0xFFF).setDt 5))
     r.2 == .fault .addressOutOfRange && r.1.pc == 0xFFF && r.1.dt == 4 && r.1.ir == 0) = true := by decide
/-- Odd addresses are fetched like any other. -/
theorem test_fetch_odd :
    ok (State.reset.setPc 0x201) 0x1812 (fun t => t.pc == 0x812) = true := by decide
/-- An unknown word: the tick is kept and `IR` holds the word (2.1). -/
theorem test_unknown_step :
    faults (State.reset.setDt 2) 0x5121 .unknownOpcode
      (fun t => t.pc == 0x200 && t.dt == 1 && t.ir == 0x5121) = true := by decide

/-! ### Control flow (2.3) -/

theorem test_1NNN : ok State.reset 0x1FFF (fun t => t.pc == 0xFFF) = true := by decide
theorem test_2NNN :
    ok (State.reset.setPc 0x2F0) 0x2ABC
      (fun t => t.pc == 0xABC && t.sp == 1 && t.stack[0] == 0x2F0) = true := by decide
theorem test_2NNN_full :
    faults (State.reset.setSp 16) 0x2ABC .stackOverflow
      (fun t => t.pc == 0x200 && t.sp == 16) = true := by decide
theorem test_00EE :
    ok (((State.reset.setPc 0x400).setSp 1).setStack 0 0x2F0) 0x00EE
      (fun t => t.pc == 0x2F2 && t.sp == 0 && t.stack[0] == 0x2F0) = true := by decide
theorem test_00EE_empty :
    faults State.reset 0x00EE .stackUnderflow (fun t => t.pc == 0x200 && t.sp == 0) = true := by decide
theorem test_BNNN : ok (State.reset.writeV 0 0xFF) 0xBFFF (fun t => t.pc == 0x10FE) = true := by decide
theorem test_3XNN_taken :
    ok (State.reset.writeV 10 0x18) 0x3A18 (fun t => t.pc == 0x204) = true := by decide
theorem test_3XNN_not_taken :
    ok (State.reset.writeV 10 0x19) 0x3A18 (fun t => t.pc == 0x202) = true := by decide
theorem test_4XNN_not_taken :
    ok (State.reset.writeV 10 0x18) 0x4A18 (fun t => t.pc == 0x202) = true := by decide
theorem test_4XNN_taken :
    ok (State.reset.writeV 10 0x19) 0x4A18 (fun t => t.pc == 0x204) = true := by decide
theorem test_5XY0_taken : ok (with2 1 7 2 7) 0x5120 (fun t => t.pc == 0x204) = true := by decide
theorem test_5XY0_not_taken : ok (with2 1 7 2 8) 0x5120 (fun t => t.pc == 0x202) = true := by decide
theorem test_9XY0_not_taken : ok (with2 1 7 2 7) 0x9120 (fun t => t.pc == 0x202) = true := by decide
theorem test_9XY0_taken : ok (with2 1 7 2 8) 0x9120 (fun t => t.pc == 0x204) = true := by decide

/-! ### Loads and arithmetic (2.4) -/

theorem test_6XNN : ok State.reset 0x6FAB (fun t => t.readV vF == 0xAB) = true := by decide
theorem test_7XNN :
    ok (State.reset.writeV 0 0xFF) 0x7001 (fun t => t.readV 0 == 0 && t.readV vF == 0) = true := by decide
theorem test_7XNN_VF : ok (State.reset.writeV vF 0xFF) 0x7F01 (fun t => t.readV vF == 0) = true := by decide
theorem test_8XY0 : aluGives (alu 0x11 0x5A) 0x8120 0x5A 0x77 = true := by decide
theorem test_8XY1 : aluGives (alu 0xF0 0x0F) 0x8121 0xFF 0x77 = true := by decide
theorem test_8XY2 : aluGives (alu 0xF0 0x3C) 0x8122 0x30 0x77 = true := by decide
theorem test_8XY3 : aluGives (alu 0xF0 0x3C) 0x8123 0xCC 0x77 = true := by decide
theorem test_8XY4 : aluGives (alu 0xFF 0x01) 0x8124 0x00 1 = true := by decide
theorem test_8XY5 : aluGives (alu 0x10 0x20) 0x8125 0xF0 0 = true := by decide
theorem test_8XY7 : aluGives (alu 0x10 0x20) 0x8127 0x10 1 = true := by decide
theorem test_8XY6 : aluGives (alu 0xFF 0xAA) 0x8126 0x7F 1 = true := by decide
theorem test_8XYE : aluGives (alu 0x81 0xAA) 0x812E 0x02 1 = true := by decide

/-! `VF` as an operand (2.4, decision D10). -/

theorem test_8XY4_y_VF : aluGives (with2 1 0xFF vF 0x05) 0x81F4 0x00 1 = true := by decide
theorem test_8XY5_y_VF : aluGives (with2 1 5 vF 9) 0x81F5 5 0 = true := by decide
theorem test_8XY7_y_VF : aluGives (with2 1 5 vF 9) 0x81F7 0xFC 1 = true := by decide
theorem test_8XY6_x_VF :
    ok (State.reset.writeV vF 0xFF) 0x8F06 (fun t => t.readV vF == 0) = true := by decide
theorem test_8XYE_x_VF :
    ok (State.reset.writeV vF 0xFF) 0x8F0E (fun t => t.readV vF == 2) = true := by decide
theorem test_CXNN : ok State.reset 0xC10F (fun t => t.readV 1 == 0x07) (rand := 0xB7) = true := by decide

/-! ### Index and memory (2.5) -/

theorem test_ANNN : ok State.reset 0xA123 (fun t => t.i == 0x123) = true := by decide
theorem test_FX1E_past_memory :
    ok ((State.reset.setI 0xFFF).writeV 1 0xFF) 0xF11E
      (fun t => t.i == 0x10FE && t.readV vF == 0) = true := by decide
theorem test_FX1E_wraps :
    ok ((State.reset.setI 0xFFFF).writeV 1 2) 0xF11E (fun t => t.i == 1) = true := by decide
theorem test_FX29 : ok (State.reset.writeV 3 0xFF) 0xF329 (fun t => t.i == 0x4FB) = true := by decide
theorem test_FX33 :
    ok ((State.reset.setI 0x00A).writeV 4 128) 0xF433
      (fun t => Memory.readBytes t.mem 0x00A 3 == [1, 2, 8]) = true := by decide
theorem test_FX33_past_end :
    faults ((State.reset.setI 0xFFE).writeV 4 255) 0xF433 .addressOutOfRange
      (fun t => t.byteAt 0xFFE == 0 && t.byteAt 0xFFF == 0 && t.pc == 0x200) = true := by decide
theorem test_FX55 :
    ok ((((with2 0 0x10 1 0x11).writeV 2 0x12).writeV 3 0x13).setI 0x300) 0xF355
      (fun t => Memory.readBytes t.mem 0x2FF 6 == [0, 0x10, 0x11, 0x12, 0x13, 0] && t.i == 0x300) =
        true := by decide
theorem test_FX55_past_end :
    faults ((State.reset.writeV 0 9).setI 0xFF1) 0xFF55 .addressOutOfRange
      (fun t => t.byteAt 0xFF1 == 0) = true := by decide
theorem test_FX65 :
    ok (with2 4 0xEE 5 0xEE) 0xF465
      (fun t => t.v.toList.take 6 == [0xF0, 0x90, 0x90, 0x90, 0xF0, 0xEE] && t.i == 0) = true := by
        decide
theorem test_FX65_past_end :
    faults ((State.reset.writeV 0 9).setI 0xFFF) 0xF165 .addressOutOfRange
      (fun t => t.readV 0 == 9) = true := by decide

/-! ### Display (2.6) -/

theorem test_00E0 :
    ok (State.reset.setDisp (Vector.replicate 32 (Vector.replicate 64 true))) 0x00E0
      (fun t => dark t [(0, 0), (0, 63), (31, 0), (31, 63)] && t.needDraw) = true := by decide
theorem test_DXYN_wraps_both_axes :
    ok ((with2 0 62 1 30).setI 0x005) 0xD015
      (fun t => lit t [(30, 0), (31, 63), (31, 0), (0, 0), (1, 0), (2, 63), (2, 0), (2, 1)] && dark t
        [(30, 62), (30, 63), (31, 62), (0, 63), (2, 62), (2, 2), (29, 0), (3, 0)] && t.readV vF == 0
        && t.needDraw) = true := by decide
theorem test_DXYN_collision :
    ok (((withByte State.reset 0x300 0xC0).setI 0x300).setDisp (framebufferPixelWriter blankDisplay 0 1)) 0xD011
      (fun t => lit t [(0, 0)] && dark t [(0, 1), (0, 2), (1, 0)] && t.readV vF == 1) = true := by
        decide

/-! ### Keys and timers (2.7) -/

theorem test_EX9E :
    ok (((State.reset.setPc 0x220).writeV 2 13).setKey 13 true) 0xE29E
      (fun t => t.pc == 0x224) = true := by decide
theorem test_EX9E_index_16 :
    faults (State.reset.writeV 2 0x10) 0xE29E .keyIndexOutOfRange
      (fun t => t.pc == 0x200) = true := by decide
theorem test_EXA1 :
    ok (((State.reset.setPc 0x220).writeV 2 13).setKey 13 true) 0xE2A1
      (fun t => t.pc == 0x222) = true := by decide
theorem test_EXA1_index_16 :
    faults (State.reset.writeV 2 0x10) 0xE2A1 .keyIndexOutOfRange
      (fun t => t.pc == 0x200) = true := by decide
theorem test_FX0A_waits :
    ok ((State.reset.setDt 2).setSt 5) 0xF50A
      (fun t => t.pc == 0x200 && t.waitInput && t.dt == 1 && t.st == 4) = true := by decide
theorem test_FX0A_lowest :
    ok (((State.reset.setKey 3 true).setKey 14 true).setKey 15 true) 0xF50A
      (fun t => t.readV 5 == 3 && t.pc == 0x202 && !t.waitInput) = true := by decide
theorem test_FX07 :
    ok ((State.reset.setDt 3).setSt 1) 0xF107
      (fun t => t.dt == 2 && t.st == 0 && t.readV 1 == 2) = true := by decide
theorem test_FX07_no_tick :
    ok ((State.reset.setDt 3).setSt 1) 0xF107
      (fun t => t.dt == 3 && t.st == 1 && t.readV 1 == 3) (tickEn := false) = true := by decide
theorem test_FX15 : ok ((State.reset.setDt 9).writeV 0 3) 0xF015 (fun t => t.dt == 3) = true := by decide
theorem test_FX18 : ok (State.reset.writeV 4 0x1E) 0xF418 (fun t => t.st == 30) = true := by decide

/-! ### Host operations (2.8) -/

theorem test_loadROM_keeps_the_rest :
    Memory.readBytes (hostLoadROM (hostLoadROM State.reset [1, 2, 3, 4]).1 [0x6A, 0x18]).1.mem 0x200 4 =
      [0x6A, 0x18, 3, 4] := by decide
theorem test_fault_codes :
    ([StepResult.ok, .fault .unknownOpcode, .fault .stackOverflow, .fault .stackUnderflow,
      .fault .addressOutOfRange, .fault .keyIndexOutOfRange].map StepResult.code) =
      [some 0, some 1, some 2, some 3, some 4, some 5] := by decide

/-! ### Witnesses: every statement's hypotheses can be met

Each theorem is named after the statement; a conjunct or a second theorem stands for a second clause. -/

/-- The reset state about to run a word. -/
def at200 (w : Nat) : State := State.reset.withFetchWord 16 w

/-- A `Step` goes on. -/
def goesOn : Result → Bool
  | .next _ => true
  | _ => false

/-- A `Step` faults. -/
def doesFault : Result → Bool
  | .fault _ => true
  | _ => false

theorem next_of_goesOn {r : Result} (h : goesOn r = true) : ∃ t, r = .next t := by
  cases r <;> first | exact ⟨_, rfl⟩ | cases h

theorem fault_of_doesFault {r : Result} (h : doesFault r = true) : ∃ f, r = .fault f := by
  cases r <;> first | exact ⟨_, rfl⟩ | cases h

theorem witness_aboutToRun_FX0A : (at200 0xF50A).AboutToRun (.opFX0A 5) := ⟨by decide, rfl⟩
theorem witness_aboutToRun_FX07 : (at200 0xF107).AboutToRun (.opFX07 1) := ⟨by decide, rfl⟩
theorem witness_aboutToRun_FX15 : (at200 0xF015).AboutToRun (.opFX15 0) := ⟨by decide, rfl⟩
theorem witness_aboutToRun_FX18 : (at200 0xF418).AboutToRun (.opFX18 4) := ⟨by decide, rfl⟩
theorem witness_aboutToRun_CXNN : (at200 0xC10F).AboutToRun (.opCXNN 1 0x0F) := ⟨by decide, rfl⟩

/-- `6A18` is neither of the instructions that write a timer. -/
theorem not_FX15 (x : RegIdx) : ¬ (at200 0x6A18).AboutToRun (.opFX15 x) := fun h => by
  have e : decodeWord _ = .ok (.op6XNN 10 0x18) := (rfl : decodeWord 0x6A18#16 = _)
  cases e.symm.trans h.decodes

theorem not_FX18 (x : RegIdx) : ¬ (at200 0x6A18).AboutToRun (.opFX18 x) := fun h => by
  have e : decodeWord _ = .ok (.op6XNN 10 0x18) := (rfl : decodeWord 0x6A18#16 = _)
  cases e.symm.trans h.decodes

theorem witness_DecodeAfterEncode : (Instr.opDXYN 15 15 15).WellFormed := by decide
theorem witness_EncodeAfterDecode : decodeWord 0xDFFF#16 = .ok (.opDXYN 15 15 15) := rfl
theorem witness_WordsMatchOneRowOrNone :
    (∃ i, decodeWord 0x512E#16 = .error i) ∧ (¬ ∃ r ∈ opcodeTable, r.Matches 0x512E#16) ∧
    (∃ r ∈ opcodeTable, r.Matches 0x5120#16) ∧ decodeWord 0x5120#16 = .ok (.op5XY0 1 2) :=
  ⟨⟨_, rfl⟩, by decide, by decide, rfl⟩
/-- At the last address a word can be fetched from. -/
theorem witness_StepRunsTheDecodedInstruction :
    ((State.reset.setPc 0xFFE).withFetchWord 16 0x6000).AboutToRun (.op6XNN 0 0) := ⟨by decide, rfl⟩
theorem witness_PlacedWordRuns :
    (State.reset.setPc 0xFFE).Inv ∧ (Instr.opDXYN 15 15 15).WellFormed ∧
    (State.reset.setPc 0xFFE).pc.toNat ≤ 0xFFE := ⟨⟨by decide, by decide⟩, by decide, by decide⟩
theorem witness_TimerTickDecrementsEachTimer :
    (State.reset.setDt 1).dt ≠ 0 ∧ (State.reset.setDt 1).st = 0 ∧
    (State.reset.setSt 255).st ≠ 0 ∧ (State.reset.setSt 255).dt = 0 := by decide
theorem witness_TickComesBeforeTheInstruction_next :
    (∃ t, stepWith true 0 (at200 0x6A18) = .next t) ∧
    (∀ x, ¬ (at200 0x6A18).AboutToRun (.opFX15 x)) ∧ (∀ x, ¬ (at200 0x6A18).AboutToRun (.opFX18 x)) :=
  ⟨next_of_goesOn (by decide), not_FX15, not_FX18⟩
theorem witness_TickComesBeforeTheInstruction_fault :
    ∃ f, stepWith true 0 (State.reset.setDt 1) = .fault f := fault_of_doesFault (by decide)
theorem witness_TickComesBeforeTheInstruction_wait :
    (at200 0xF50A).AboutToRun (.opFX0A 5) ∧ ∀ k, (at200 0xF50A).keyDown k = false :=
  ⟨witness_aboutToRun_FX0A, by decide⟩
/-- `FX15` and, in the very next `Step`, `FX07`. -/
theorem witness_TickComesBeforeTheInstruction_set_then_read :
    ∃ t, ((at200 0xF015).setMem (Memory.writeBytes (at200 0xF015).mem 0x202 [0xF1, 0x07])).AboutToRun
        (.opFX15 0) ∧
      stepWith true 0 ((at200 0xF015).setMem (Memory.writeBytes (at200 0xF015).mem 0x202 [0xF1, 0x07])) =
        .next t ∧ t.AboutToRun (.opFX07 1) :=
  ⟨_, ⟨by decide, rfl⟩, rfl, ⟨by decide, rfl⟩⟩
theorem witness_NoTickWithoutEnable :
    (∃ t, stepWith false 0 (at200 0x6A18) = .next t) ∧
    (∀ x, ¬ (at200 0x6A18).AboutToRun (.opFX15 x)) ∧ (∀ x, ¬ (at200 0x6A18).AboutToRun (.opFX18 x)) ∧
    (∃ f, stepWith false 0 State.reset = .fault f) :=
  ⟨next_of_goesOn (by decide), not_FX15, not_FX18,
    fault_of_doesFault (by decide)⟩
theorem witness_FetchPastMemoryFaults : 0xFFE < (State.reset.setPc 0xFFF).pc.toNat := by decide
theorem witness_UnknownWordFaults :
    (at200 0x512F).pc.toNat ≤ 0xFFE ∧
    0x512F#16 = wordOfBytes ((at200 0x512F).byteAt 0x200) ((at200 0x512F).byteAt 0x201) ∧
    ¬ ∃ r ∈ opcodeTable, r.Matches 0x512F#16 := by decide
/-- A fault of the fetch, of the decoder and of a handler. -/
theorem witness_FaultingStepIsPrecise :
    (∃ f, stepWith true 0 (State.reset.setPc 0xFFF) = .fault f) ∧
    0xFFE < (State.reset.setPc 0xFFF).pc.toNat ∧
    (∃ f, stepWith true 0 State.reset = .fault f) ∧ (∃ f, stepWith true 0 (at200 0x00EE) = .fault f) ∧
    (at200 0x00EE).pc.toNat ≤ 0xFFE :=
  ⟨fault_of_doesFault (by decide), by decide, fault_of_doesFault (by decide),
    fault_of_doesFault (by decide), by decide⟩
theorem witness_FaultRepeats : ∃ f, stepWith true 0 (at200 0x00EE) = .fault f :=
  fault_of_doesFault (by decide)
theorem witness_InstructionCompletesOrFaults :
    (Instr.opFX55 15).faultIn (State.reset.setI 0xFF0) = none ∧
    (Instr.opFX55 15).faultIn (State.reset.setI 0xFF1) = some .addressOutOfRange ∧
    (Instr.opDXYN 0 0 15).faultIn (State.reset.setI 0xFF1) = none ∧
    (Instr.opDXYN 0 0 15).faultIn (State.reset.setI 0xFF2) = some .addressOutOfRange ∧
    (Instr.opDXYN 0 0 0).faultIn (State.reset.setI 0xFFFF) = none ∧
    (Instr.opFX33 0).faultIn (State.reset.setI 0xFFD) = none ∧
    (Instr.opFX33 0).faultIn (State.reset.setI 0xFFE) = some .addressOutOfRange ∧
    (Instr.opEX9E 0).faultIn (State.reset.writeV 0 15) = none ∧
    (Instr.opEXA1 0).faultIn (State.reset.writeV 0 16) = some .keyIndexOutOfRange ∧
    (Instr.op2NNN 0).faultIn (State.reset.setSp 15) = none ∧
    (Instr.op2NNN 0).faultIn (State.reset.setSp 16) = some .stackOverflow ∧
    Instr.op00EE.faultIn (State.reset.setSp 1) = none ∧
    Instr.op00EE.faultIn State.reset = some .stackUnderflow := by decide
theorem witness_InstructionLeavesPc :
    (∃ t, exec (.op3XNN 0 0) (State.reset.setPc 0xFFFE) = .next t) ∧
    (∃ f, stepWith true 0 (at200 0x00EE) = .fault f) := ⟨⟨_, rfl⟩, fault_of_doesFault (by decide)⟩
theorem witness_OnlyItsOwnPiecesChange : ∃ t, exec (.op8XY4 0 15) State.reset = .next t := ⟨_, rfl⟩
theorem witness_OnlyItsOwnRegistersChange :
    (∃ t, exec (.opFX65 14) State.reset = .next t) ∧ ¬ (Instr.opFX65 14).writesReg 15 :=
  ⟨next_of_goesOn (by decide), by unfold Instr.writesReg; decide⟩
theorem witness_StepKeepsInvariant :
    State.reset.Inv ∧ (∃ f, step State.reset = .fault f) ∧ (at200 0x2ABC).Inv ∧
    (∃ t, step (at200 0x2ABC) = .next t) :=
  ⟨⟨by decide, by decide⟩, fault_of_doesFault (by decide), ⟨by decide, by decide⟩,
    next_of_goesOn (by decide)⟩
/-- A state reached by a load and a call. -/
theorem witness_ReachableStatesMeetInvariant :
    Reachable (applyMoves State.reset [.loadROM [0x2A, 0xBC], .step true 0]) ∧
    0 < (applyMoves State.reset [.loadROM [0x2A, 0xBC], .step true 0]).sp.val := ⟨⟨_, rfl⟩, by decide⟩
/-- A state that meets the invariant with a live stack entry at the bound. -/
theorem witness_EveryMoveKeepsInvariant : ((State.reset.setStack 0 0xFFE).setSp 1).Inv :=
  ⟨by decide, by decide⟩
theorem witness_RandomByteIsMasked : (at200 0xC10F).AboutToRun (.opCXNN 1 0x0F) := witness_aboutToRun_CXNN
/-- The sum 255 and the sum 256; the four cases of `x` and `y`. -/
theorem witness_AddSetsCarry :
    ((with2 1 0x80 2 0x7F).readV 1).toNat + ((with2 1 0x80 2 0x7F).readV 2).toNat = 255 ∧
    ((with2 1 0xFF 2 0x01).readV 1).toNat + ((with2 1 0xFF 2 0x01).readV 2).toNat = 256 ∧
    (1 : RegIdx) ≠ vF ∧ (15 : RegIdx) = vF := by decide
/-- Equal operands and a borrow of one; the four cases of `x` and `y`. -/
theorem witness_SubtractSetsNoBorrow :
    ((with2 1 0x33 2 0x33).readV 2).toNat = ((with2 1 0x33 2 0x33).readV 1).toNat ∧
    ((with2 1 0 2 1).readV 2).toNat > ((with2 1 0 2 1).readV 1).toNat ∧
    (1 : RegIdx) ≠ vF ∧ (15 : RegIdx) = vF := by decide
theorem witness_ReverseSubtractSetsNoBorrow :
    ((with2 1 0x33 2 0x33).readV 1).toNat = ((with2 1 0x33 2 0x33).readV 2).toNat ∧
    ((with2 1 1 2 0).readV 1).toNat > ((with2 1 1 2 0).readV 2).toNat ∧
    (1 : RegIdx) ≠ vF ∧ (15 : RegIdx) = vF := by decide
theorem witness_ShiftsSetDroppedBit :
    127 = ((State.reset.writeV vF 0x7F).readV vF).toNat ∧
    128 = ((State.reset.writeV vF 0x80).readV vF).toNat ∧
    (1 : RegIdx) ≠ vF ∧ (15 : RegIdx) = vF := by decide
/-- A jump to itself; targets 0xFFF and 0x10FE. -/
theorem witness_JumpsSetPc :
    State.reset.pc.toNat = (0x200#12).toNat ∧ 0xFFE < (0xFFF#12).toNat ∧
    0xFFE < ((State.reset.writeV 0 0xFF).readV 0).toNat + (0xFFF#12).toNat := by decide
theorem witness_CallPushesItsOwnAddress :
    (0 : Fin 16).val = State.reset.sp.val ∧ (15 : Fin 16).val = (State.reset.setSp 15).sp.val ∧
    (State.reset.setSp 16).sp.val = 16 := by decide
theorem witness_ReturnResumesAfterCall :
    (0 : Fin 16).val + 1 = (State.reset.setSp 1).sp.val ∧
    (15 : Fin 16).val + 1 = (State.reset.setSp 16).sp.val ∧
    State.reset.sp.val = 0 := by decide
theorem witness_CallThenReturn :
    ∃ t, exec (.op2NNN 0xABC) (State.reset.setPc 0x2F0) = .next t ∧
      ((t.writeV 0 7).setPc 0x400).sp = t.sp ∧
      ∀ k : Fin 16, k.val < t.sp.val → ((t.writeV 0 7).setPc 0x400).stack[k] = t.stack[k] :=
  ⟨_, rfl, rfl, fun _ _ => rfl⟩
theorem witness_DecimalDigitsStored :
    Memory.wf (State.reset.setI 0xFFD).mem = true ∧ (State.reset.setI 0xFFD).i.toNat + 2 ≤ 0xFFF ∧
    0xFFF < (State.reset.setI 0xFFE).i.toNat + 2 := by decide
/-- `FX55` and `FX65` share the two ranges. -/
theorem witness_RegistersStored_RegistersLoaded :
    Memory.wf (State.reset.setI 0xFF0).mem = true ∧
    (State.reset.setI 0xFF0).i.toNat + (15 : RegIdx).val ≤ 0xFFF ∧
    0xFFF < (State.reset.setI 0xFF1).i.toNat + (15 : RegIdx).val ∧
    (15 : RegIdx).val ≤ (15 : RegIdx).val ∧ (0 : RegIdx).val < (1 : RegIdx).val := by decide
theorem witness_StoreThenLoadRoundTrip :
    Memory.wf (State.reset.setI 0x300).mem = true ∧
    ∃ t, exec (.opFX55 15) (State.reset.setI 0x300) = .next t ∧ (t.writeV 3 9).mem = t.mem ∧
      (t.writeV 3 9).i = t.i := ⟨by decide, _, rfl, rfl, rfl⟩
/-- `F155` at 0x200 with `I = 0x202` writes `6A18` over the word after it. -/
theorem witness_StoredWordIsFetchedNext :
    (((with2 0 0x6A 1 0x18).setI 0x202).withFetchWord 16 0xF155).AboutToRun (.opFX55 1) :=
  ⟨by decide, rfl⟩
theorem witness_StoredWordIsFetchedNext_rest :
    (((with2 0 0x6A 1 0x18).setI 0x202).withFetchWord 16 0xF155).Inv ∧
    (((with2 0 0x6A 1 0x18).setI 0x202).withFetchWord 16 0xF155).i.toNat = 0x200 + 2 ∧
    1 ≤ (1 : RegIdx).val ∧ decodeWord (wordOfBytes 0x6A 0x18) = .ok (.op6XNN 10 0x18) ∧
    ∃ t, stepWith true 0 (((with2 0 0x6A 1 0x18).setI 0x202).withFetchWord 16 0xF155) = .next t :=
  ⟨⟨by decide, by decide⟩, by decide, by decide, rfl, next_of_goesOn (by decide)⟩
/-- Fifteen rows to the last byte of memory; no rows with `I` outside it; a covered cell and a bare one. -/
theorem witness_DrawInvertsCoveredCells :
    15 < 16 ∧ (State.reset.setI 0xFF1).i.toNat + 15 - 1 ≤ 0xFFF ∧
    SpriteCovers State.reset 0 1 5 0 3 ∧ ¬ SpriteCovers State.reset 0 1 0 0 3 :=
  ⟨by decide, by decide, ⟨0, 3, by decide, by decide, by decide, by decide, by decide⟩,
    fun ⟨_, _, h, _⟩ => absurd h (Nat.not_lt_zero _)⟩
theorem witness_DrawSetsCollision :
    (∃ r c, SpriteCovers (State.reset.setDisp (framebufferPixelWriter blankDisplay 0 3)) 0 1 5 r c ∧
      (State.reset.setDisp (framebufferPixelWriter blankDisplay 0 3)).disp.cell r c = true) ∧
    ¬ ∃ r c, SpriteCovers State.reset 0 1 0 r c ∧ State.reset.disp.cell r c = true :=
  ⟨⟨0, 3, ⟨0, 3, by decide, by decide, by decide, by decide, by decide⟩, by decide⟩,
    fun ⟨_, _, ⟨_, _, h, _⟩, _⟩ => absurd h (Nat.not_lt_zero _)⟩
/-- The last row one past the memory, and on its last byte. -/
theorem witness_DrawFaultsOnlyPastMemory :
    0 < 2 ∧ 0xFFF < (State.reset.setI 0xFFF).i.toNat + 2 - 1 ∧
    0 < 15 ∧ (State.reset.setI 0xFF1).i.toNat + 15 - 1 ≤ 0xFFF := by decide
theorem witness_DrawTwiceRestores :
    5 < 16 ∧ (0 : RegIdx) ≠ vF ∧ (1 : RegIdx) ≠ vF ∧
    (∃ t, exec (.opDXYN 0 1 5) State.reset = .next t) ∧
    (∃ r c, SpriteCovers State.reset 0 1 5 r c ∧ State.reset.disp.cell r c = false) ∧
    ¬ ∃ r c, SpriteCovers State.reset 0 1 0 r c ∧ State.reset.disp.cell r c = false :=
  ⟨by decide, by decide, by decide, ⟨_, rfl⟩,
    ⟨0, 3, ⟨0, 3, by decide, by decide, by decide, by decide, by decide⟩, by decide⟩,
    fun ⟨_, _, ⟨_, _, h, _⟩, _⟩ => absurd h (Nat.not_lt_zero _)⟩
theorem witness_NeedDrawIsSticky :
    (∃ t, exec .op00E0 State.reset = .next t) ∧ (∃ t, exec (.opDXYN 0 0 15) State.reset = .next t) ∧
    (∃ f, exec (.opDXYN 0 0 2) (State.reset.setI 0xFFF) = .fault f) ∧
    ((at200 0x6A18).setNeedDraw true).needDraw = true ∧
    (∃ t, stepWith true 0 ((at200 0x6A18).setNeedDraw true) = .next t) ∧
    (∃ f, stepWith true 0 (State.reset.setNeedDraw true) = .fault f) :=
  ⟨⟨_, rfl⟩, ⟨_, rfl⟩, fault_of_doesFault (by decide), rfl, next_of_goesOn (by decide),
    fault_of_doesFault (by decide)⟩
theorem witness_KeySkips :
    ((State.reset.writeV 0 15).readV 0).toNat = (15 : Fin 16).val ∧
    ((State.reset.writeV 0 16).readV 0).toNat > 15 := by decide
theorem witness_WaitTakesLowestKey :
    (∀ k, State.reset.keyDown k = false) ∧ (State.reset.setKey 15 true).keyDown 15 = true ∧
    (∀ j, j < 15 → (State.reset.setKey 15 true).keyDown j = false) ∧
    (State.reset.setKey 0 true).keyDown 0 = true := by decide
theorem witness_KeyWaitRepeats :
    (at200 0xF50A).AboutToRun (.opFX0A 5) ∧ (∀ k, (at200 0xF50A).keyDown k = false) ∧ 0 < 3 ∧
    (at200 0xF50A).env.tickEn = true ∧ (driveTickEn (at200 0xF50A) false).env.tickEn = false :=
  ⟨witness_aboutToRun_FX0A, by decide, by decide, rfl, rfl⟩
theorem witness_TimerAccess :
    (at200 0xF107).AboutToRun (.opFX07 1) ∧ (at200 0xF015).AboutToRun (.opFX15 0) ∧
    (at200 0xF418).AboutToRun (.opFX18 4) :=
  ⟨witness_aboutToRun_FX07, witness_aboutToRun_FX15, witness_aboutToRun_FX18⟩
/-- Two states that differ in `NeedDraw`, `WaitInput`, `IR` and a stale stack entry. -/
theorem witness_OutputsNeverInfluenceExecution :
    SameToProgram (at200 0x00EE)
      ((((at200 0x00EE).setNeedDraw true).setWaitInput true).setIr 7 |>.setStack 0 9) where
  regs := fun _ => rfl
  i := rfl
  pc := rfl
  sp := rfl
  live := fun _ h => absurd h (Nat.not_lt_zero _)
  dt := rfl
  st := rfl
  mem := rfl
  disp := rfl
  keys := rfl
  env := rfl
theorem witness_ResetLeavesStatedValues : 0x050 ≤ 0xFFF := by decide
theorem witness_LoadROMCopiesImage :
    Memory.wf State.reset.mem = true ∧ (List.replicate 3584 (0 : Byte)).length ≤ 3584 ∧
    3584 < (List.replicate 3585 (0 : Byte)).length :=
  ⟨by decide, by rw [List.length_replicate], by rw [List.length_replicate]; decide⟩
theorem witness_FirstInstructionAfterBoot :
    (List.replicate 3582 (0 : Byte)).length + 2 ≤ 3584 ∧
    decodeWord (wordOfBytes 0x6A 0x18) = .ok (.op6XNN 10 0x18) :=
  ⟨by rw [List.length_replicate], rfl⟩
theorem witness_HostSeesTheGrid : (2047 : Fin 2048).val = (31 : Fin 32).val * 64 + (63 : Fin 64).val := by
  decide

end Sys2Proof.Tests
end

section
/-! PROOFS of the statements on the step cycle (40_step_cycle.md): the tick, when it happens, and the `PC`
each instruction leaves. -/

namespace Sys2Proof.Machine

/-! ### What a handler can do, by the tables of Safety.lean -/

/-- An instruction that went on from `s` to `t` as its tables say: its fault condition did not hold, it wrote
only its own pieces, and it left the `PC` of rule R78. -/
structure RunsAsTabled (i : Instr) (s t : State) : Prop where
  faultless : i.faultIn s = none
  frame : ChangesOnly i.writes s t
  leavesPc : ∃ n, i.LeavesPc s n ∧ t.pc.toNat = n % 65536

/-- The two outcomes of a handler (rules R78, R80, R160): it goes on as its tables say, or it raises its own
fault from the state it was given. -/
def GoesOnOrRaises (i : Instr) (s : State) : Prop :=
  (∃ t, exec i s = .next t ∧ RunsAsTabled i s t) ∨ (∃ c, i.faultIn s = some c ∧ exec i s = raise c s)

variable {i : Instr} {s t u : State}

theorem pc_mem_writes (i : Instr) : Part.pc ∈ i.writes := by
  cases i <;> simp [Instr.writes]

theorem absolute_toNat_mod (nnn : Addr12) : (absolute nnn).toNat = nnn.toNat % 65536 := by
  rw [absolute_toNat]
  omega

/-- The last update of nearly every handler is that of `PC`. -/
theorem goesOn_setPc {w : Word} {n : Nat} (hexec : exec i s = .next (u.setPc w))
    (hfault : i.faultIn s = none) (hframe : ChangesOnly i.writes s u) (hn : i.LeavesPc s n)
    (hw : w.toNat = n % 65536) : GoesOnOrRaises i s :=
  .inl ⟨_, hexec, hfault,
    hframe.trans ((changesOnly_setPc u w).mono (by simpa using pc_mem_writes i)), n, hn, hw⟩

theorem goesOn_advance (hexec : exec i s = .next u.advance) (hfault : i.faultIn s = none)
    (hframe : ChangesOnly i.writes s u) (hpc : u.pc = s.pc) (hn : i.LeavesPc s (s.pc.toNat + 2)) :
    GoesOnOrRaises i s :=
  goesOn_setPc hexec hfault hframe hn (hpc ▸ pcAdvances_advance u)

theorem goesOn_setRegister {x : RegIdx} {b : Byte} (hexec : exec i s = setRegister s x b)
    (hfault : i.faultIn s = none) (hv : Part.v ∈ i.writes) (hn : i.LeavesPc s (s.pc.toNat + 2)) :
    GoesOnOrRaises i s :=
  goesOn_advance hexec hfault ((changesOnly_writeV s x b).mono (by simpa using hv)) rfl hn

theorem goesOn_skipIf {c : Bool} (hexec : exec i s = .next (s.skipIf c)) (hfault : i.faultIn s = none)
    (hn : i.LeavesPc s (s.pc.toNat + if c then 4 else 2)) : GoesOnOrRaises i s :=
  goesOn_setPc hexec hfault (.refl _ s) hn (pcAdvances_skipIf s c)

theorem goesOnOrRaises_storeAtI {bs : List Byte} (hexec : exec i s = storeAtI bs s) (hne : bs ≠ [])
    (hfault : i.faultIn s = if s.i.toNat + (bs.length - 1) > 0xFFF then some .addressOutOfRange else none)
    (hmem : Part.mem ∈ i.writes) (hn : i.LeavesPc s (s.pc.toNat + 2)) : GoesOnOrRaises i s := by
  have hlen : 0 < bs.length := List.length_pos_iff.2 hne
  rcases storeAtI_cases hne s with ⟨hin, hst⟩ | ⟨hout, hst⟩
  · exact goesOn_advance (hexec.trans hst) (by rw [hfault, if_neg (by omega)])
      ((changesOnly_setMem s _).mono (by simpa using hmem)) rfl hn
  · exact .inr ⟨_, by rw [hfault, if_pos (by omega)], hexec.trans hst⟩

/-! ### The instructions with a fault or a wait of their own -/

theorem goesOnOrRaises_00EE (s : State) : GoesOnOrRaises .op00EE s := by
  by_cases h : 0 < s.sp.val
  · exact goesOn_setPc (exec00EE_of_pos h) (if_neg (by omega))
      ((changesOnly_setSp s _).mono (by simp [Instr.writes]))
      ⟨⟨s.sp.val - 1, by omega⟩, Nat.sub_add_cancel h, rfl⟩ (by simp [BitVec.toNat_add])
  · exact .inr ⟨_, if_pos (by omega), exec00EE_of_empty (by omega)⟩

theorem goesOnOrRaises_2NNN (nnn : Addr12) (s : State) : GoesOnOrRaises (.op2NNN nnn) s := by
  by_cases h : s.sp.val < 16
  · exact goesOn_setPc (exec2NNN_of_lt h nnn) (if_neg (by omega))
      (((changesOnly_setStack s _ _).append (changesOnly_setSp _ _)).mono (by simp [Instr.writes]))
      rfl (absolute_toNat_mod nnn)
  · exact .inr ⟨_, if_pos (by omega), exec2NNN_of_full (by omega) nnn⟩

theorem goesOnOrRaises_DXYN (x y : RegIdx) (n : Nat) (s : State) :
    GoesOnOrRaises (.opDXYN x y n) s := by
  by_cases h : n = 0 ∨ s.i.toNat + n ≤ 0x1000
  · exact goesOn_advance (execDXYN_of_inRange h x y) (if_neg (by omega))
      ((((changesOnly_writeV s _ _).append (changesOnly_setDisp _ _)).append
        (changesOnly_setNeedDraw _ _)).mono (by simp [Instr.writes])) rfl rfl
  · exact .inr ⟨_, if_pos (by omega), execDXYN_of_outOfRange (by omega) (by omega) x y⟩

theorem goesOnOrRaises_EX9E (x : RegIdx) (s : State) : GoesOnOrRaises (.opEX9E x) s := by
  by_cases h : (s.readV x).toNat < 16
  · exact goesOn_skipIf (execEX9E_of_lt h) (if_neg (by omega)) ⟨⟨_, h⟩, rfl, rfl⟩
  · exact .inr ⟨_, if_pos (by omega), execEX9E_of_ge (by omega)⟩

theorem goesOnOrRaises_EXA1 (x : RegIdx) (s : State) : GoesOnOrRaises (.opEXA1 x) s := by
  by_cases h : (s.readV x).toNat < 16
  · exact goesOn_skipIf (execEXA1_of_lt h) (if_neg (by omega)) ⟨⟨_, h⟩, rfl, by simp⟩
  · exact .inr ⟨_, if_pos (by omega), execEXA1_of_ge (by omega)⟩

theorem goesOnOrRaises_FX0A (x : RegIdx) (s : State) : GoesOnOrRaises (.opFX0A x) s := by
  match h : s.lowestKey with
  | none =>
    have hidle : ¬ s.SomeKeyDown := fun ⟨k, hk⟩ => by simp [lowestKey_eq_none.1 h k] at hk
    exact .inl ⟨_, execFX0A_of_none h x, rfl,
      (changesOnly_setWaitInput s true).mono (by simp [Instr.writes]), _, .inr ⟨hidle, rfl⟩,
      (Nat.mod_eq_of_lt s.pc.isLt).symm⟩
  | some k =>
    exact goesOn_advance (execFX0A_of_some h x) rfl
      ((((changesOnly_setWaitInput s _).append (changesOnly_writeV _ _ _)).append
        (changesOnly_setWaitInput _ _)).mono (by simp [Instr.writes])) rfl
      (.inl ⟨⟨k, (lowestKey_eq_some.1 h).1⟩, rfl⟩)

theorem goesOnOrRaises_FX65 (x : RegIdx) (s : State) : GoesOnOrRaises (.opFX65 x) s := by
  by_cases h : s.i.toNat + x.val ≤ 0xFFF
  · exact goesOn_advance (execFX65_of_inRange h) (if_neg (by omega))
      ((changesOnly_loadRegs s 0 _).mono (by simp [Instr.writes]))
      (changesOnly_loadRegs s 0 _ .pc (by simp)) rfl
  · exact .inr ⟨_, if_pos (by omega), execFX65_of_outOfRange (by omega)⟩

/-! ### Every instruction -/

/-- Every handler goes on as its tables say or raises its own fault with nothing changed. -/
theorem exec_goesOnOrRaises (i : Instr) (s : State) : GoesOnOrRaises i s := by
  cases i with
  | op00EE => exact goesOnOrRaises_00EE s
  | op2NNN nnn => exact goesOnOrRaises_2NNN nnn s
  | opDXYN x y n => exact goesOnOrRaises_DXYN x y n s
  | opEX9E x => exact goesOnOrRaises_EX9E x s
  | opEXA1 x => exact goesOnOrRaises_EXA1 x s
  | opFX0A x => exact goesOnOrRaises_FX0A x s
  | opFX65 x => exact goesOnOrRaises_FX65 x s
  | opFX33 x =>
    exact goesOnOrRaises_storeAtI rfl (decimalDigits_ne_nil _) rfl (by simp [Instr.writes]) rfl
  | opFX55 x =>
    exact goesOnOrRaises_storeAtI rfl (regsUpTo_ne_nil s x) (by simp [Instr.faultIn])
      (by simp [Instr.writes]) rfl
  | op1NNN nnn => exact goesOn_setPc rfl rfl (.refl _ s) rfl (absolute_toNat_mod nnn)
  | opBNNN nnn => exact goesOn_setPc rfl rfl (.refl _ s) rfl (by simp [BitVec.toNat_add])
  | op3XNN | op4XNN | op5XY0 | op9XY0 => exact goesOn_skipIf rfl rfl (by simp [Instr.LeavesPc])
  | op6XNN | op7XNN | op8XY0 | op8XY1 | op8XY2 | op8XY3 | opCXNN | opFX07 =>
    exact goesOn_setRegister rfl rfl (by simp [Instr.writes]) rfl
  | op8XY4 | op8XY5 | op8XY6 | op8XY7 | op8XYE =>
    exact goesOn_advance rfl rfl
      (((changesOnly_writeV s _ _).trans (changesOnly_writeV _ _ _)).mono (by simp [Instr.writes]))
      rfl rfl
  | opANNN | opFX1E | opFX29 =>
    exact goesOn_advance rfl rfl ((changesOnly_setI s _).mono (by simp [Instr.writes])) rfl rfl
  | opFX15 x =>
    exact goesOn_advance rfl rfl ((changesOnly_setDt s _).mono (by simp [Instr.writes])) rfl rfl
  | opFX18 x =>
    exact goesOn_advance rfl rfl ((changesOnly_setSt s _).mono (by simp [Instr.writes])) rfl rfl
  | op00E0 =>
    exact goesOn_advance rfl rfl
      (((changesOnly_setDisp s _).append (changesOnly_setNeedDraw _ _)).mono (by simp [Instr.writes]))
      rfl rfl

/-- A handler that goes on does so as its tables say. -/
theorem runsAsTabled_of_exec_next (h : exec i s = .next t) : RunsAsTabled i s t := by
  rcases exec_goesOnOrRaises i s with ⟨t', ht', hrun⟩ | ⟨c, -, hraise⟩
  · rw [h] at ht'
    cases ht'
    exact hrun
  · exact absurd (hraise.symm.trans h) (raise_ne_next c s t)

/-- A handler that faults raises its own fault, from the state it was given. -/
theorem exec_eq_fault {f : Fault} (h : exec i s = .fault f) :
    i.faultIn s = some f.cause ∧ f.after = s := by
  rcases exec_goesOnOrRaises i s with ⟨t, ht, -⟩ | ⟨c, hc, hraise⟩
  · rw [h] at ht
    cases ht
  · obtain ⟨hcause, hafter⟩ := raise_eq_fault (hraise.symm.trans h)
    exact ⟨hcause ▸ hc, hafter⟩

/-! ### What a `Step` that goes on, or that faults, has done -/

variable {tickEn : Bool} {rand : Byte}

/-- A `Step` that goes on has run the instruction at `PC` on the state after the tick and the fetch. -/
theorem stepWith_eq_next (h : stepWith tickEn rand s = .next t) :
    ∃ i, s.AboutToRun i ∧ exec i (s.handed tickEn rand s.wordAtPc) = .next t := by
  rcases stepWith_cases s tickEn rand with ⟨-, hs⟩ | ⟨-, -, hs⟩ | ⟨hpc, i, hi, hs⟩
  · exact absurd (hs.symm.trans h) (raise_ne_next _ _ _)
  · exact absurd (hs.symm.trans h) (raise_ne_next _ _ _)
  · exact ⟨i, ⟨hpc, hi⟩, hs.symm.trans h⟩

/-- The instruction of a `Step` that goes on writes its own pieces only, over what the tick and the fetch left. -/
theorem stepWith_next_frame (h : stepWith tickEn rand s = .next t) :
    ∃ i, s.AboutToRun i ∧ ChangesOnly i.writes (s.handed tickEn rand s.wordAtPc) t := by
  obtain ⟨i, hi, hexec⟩ := stepWith_eq_next h
  exact ⟨i, hi, (runsAsTabled_of_exec_next hexec).frame⟩

/-- A `Step` that faults leaves the state after the tick, and after the fetch if that succeeded (rule R80). -/
theorem stepWith_eq_fault {f : Fault} (h : stepWith tickEn rand s = .fault f) :
    (0xFFE < s.pc.toNat ∧ f.after = s.beginStep tickEn rand) ∨
    (s.pc.toNat ≤ 0xFFE ∧ f.after = s.handed tickEn rand s.wordAtPc) := by
  rcases stepWith_cases s tickEn rand with ⟨hpc, hs⟩ | ⟨hpc, -, hs⟩ | ⟨hpc, i, -, hs⟩
  · exact .inl ⟨hpc, (raise_eq_fault (hs.symm.trans h)).2⟩
  · exact .inr ⟨hpc, (raise_eq_fault (hs.symm.trans h)).2⟩
  · exact .inr ⟨hpc, (exec_eq_fault (hs.symm.trans h)).2⟩

/-! ### Who writes a timer -/

theorem dt_mem_writes : Part.dt ∈ i.writes ↔ ∃ x, i = .opFX15 x := by
  cases i <;> simp [Instr.writes]

theorem st_mem_writes : Part.st ∈ i.writes ↔ ∃ x, i = .opFX18 x := by
  cases i <;> simp [Instr.writes]

/-- Without an `FX15` a `Step` leaves `DT` as the tick made it. -/
theorem stepWith_next_dt (h : stepWith tickEn rand s = .next t) (hno : ∀ x, ¬ s.AboutToRun (.opFX15 x)) :
    t.dt = (s.beginStep tickEn rand).dt := by
  obtain ⟨i, hi, hframe⟩ := stepWith_next_frame h
  refine hframe .dt fun hmem => ?_
  obtain ⟨x, rfl⟩ := dt_mem_writes.1 hmem
  exact hno x hi

/-- Without an `FX18` a `Step` leaves `ST` as the tick made it. -/
theorem stepWith_next_st (h : stepWith tickEn rand s = .next t) (hno : ∀ x, ¬ s.AboutToRun (.opFX18 x)) :
    t.st = (s.beginStep tickEn rand).st := by
  obtain ⟨i, hi, hframe⟩ := stepWith_next_frame h
  refine hframe .st fun hmem => ?_
  obtain ⟨x, rfl⟩ := st_mem_writes.1 hmem
  exact hno x hi

/-- A `Step` that faults keeps the tick (rule R80). -/
theorem stepWith_fault_timers {f : Fault} (h : stepWith tickEn rand s = .fault f) :
    f.after.dt = (s.beginStep tickEn rand).dt ∧ f.after.st = (s.beginStep tickEn rand).st := by
  rcases stepWith_eq_fault h with ⟨-, hafter⟩ | ⟨-, hafter⟩ <;> simp [hafter]

theorem stepWith_fault_pc {f : Fault} (h : stepWith tickEn rand s = .fault f) : f.after.pc = s.pc := by
  rcases stepWith_eq_fault h with ⟨-, hafter⟩ | ⟨-, hafter⟩ <;> simp [hafter]

/-! ### The timer instructions and the key wait, in a `Step` -/

/-- `FX07` in a `Step` reads the delay timer the tick has left (rules R73, R154). -/
theorem stepWith_FX07 {x : RegIdx} (h : s.AboutToRun (.opFX07 x)) (tickEn : Bool) (rand : Byte) :
    ∃ t, stepWith tickEn rand s = .next t ∧ t.readV x = (s.beginStep tickEn rand).dt :=
  ⟨_, stepWith_of_aboutToRun h tickEn rand, by simp⟩

/-- `FX15` in a `Step` overwrites what the tick has left (rules R73, R155). -/
theorem stepWith_FX15 {x : RegIdx} (h : s.AboutToRun (.opFX15 x)) (tickEn : Bool) (rand : Byte) :
    ∃ t, stepWith tickEn rand s = .next t ∧ t.dt = s.readV x :=
  ⟨_, stepWith_of_aboutToRun h tickEn rand, by simp⟩

/-- `FX18` in a `Step` overwrites what the tick has left (rules R73, R156). -/
theorem stepWith_FX18 {x : RegIdx} (h : s.AboutToRun (.opFX18 x)) (tickEn : Bool) (rand : Byte) :
    ∃ t, stepWith tickEn rand s = .next t ∧ t.st = s.readV x :=
  ⟨_, stepWith_of_aboutToRun h tickEn rand, by simp⟩

/-- `FX0A` with no key down sets `WaitInput` on the state it was given, and no more (rules R73, R152). -/
theorem stepWith_FX0A_idle {x : RegIdx} (h : s.AboutToRun (.opFX0A x)) (hidle : ∀ k, s.keyDown k = false)
    (tickEn : Bool) (rand : Byte) :
    stepWith tickEn rand s = .next ((s.handed tickEn rand s.wordAtPc).setWaitInput true) :=
  (stepWith_of_aboutToRun h tickEn rand).trans
    (execFX0A_of_none (lowestKey_eq_none.2 fun k => by simpa using hidle k) x)

end Sys2Proof.Machine

/-! ### The obligations -/

open Sys2Proof Sys2Proof.Machine

/-- Settles O7: one timer's decrement on each timer, and the frame of the two writes. -/
theorem timerTickDecrementsEachTimer : Obligations.TimerTickDecrementsEachTimer := by
  have hdec : ∀ b : Byte, b ≠ 0 → (tickTimer b).toNat + 1 = b.toNat := fun b hb => by
    have : b.toNat ≠ 0 := fun e => hb (BitVec.eq_of_toNat_eq e)
    rw [tickTimer_toNat]
    omega
  have hstop : ∀ b : Byte, b = 0 → tickTimer b = 0 := fun b hb => by subst hb; rfl
  exact fun s => ⟨hdec s.dt, hstop s.dt, hdec s.st, hstop s.st, changesOnly_timerTick s⟩

/-- Settles O16: the table of rule R78 is part of what every handler is shown to do, and a faulting `Step`
leaves a state that only the tick and the fetch have touched. -/
theorem instructionLeavesPc : Obligations.InstructionLeavesPc :=
  ⟨fun _ _ _ h => (runsAsTabled_of_exec_next h).leavesPc, fun _ _ _ _ h => stepWith_fault_pc h⟩

/-- Settles O8: only `FX15` and `FX18` write a timer, so the tick stands after every other `Step`. -/
theorem tickComesBeforeTheInstruction : Obligations.TickComesBeforeTheInstruction := by
  intro rand s
  refine ⟨fun t h hno => ?_, fun t h hno => ?_, fun f h => ?_, fun x h hidle => ?_, fun x h => ?_,
    fun x h => stepWith_FX15 h true rand, fun x h => stepWith_FX18 h true rand,
    fun x y rand' t h ht h' => ?_⟩
  · simp [stepWith_next_dt h hno]
  · simp [stepWith_next_st h hno]
  · obtain ⟨hdt, hst⟩ := stepWith_fault_timers h
    simp [hdt, hst]
  · exact ⟨_, stepWith_FX0A_idle h hidle true rand, by simp, by simp⟩
  · obtain ⟨t, ht, hread⟩ := stepWith_FX07 h true rand
    exact ⟨t, ht, by simp [hread]⟩
  · obtain ⟨t', ht', hset⟩ := stepWith_FX15 h true rand
    rw [ht] at ht'
    cases ht'
    obtain ⟨u, hu, hread⟩ := stepWith_FX07 h' true rand'
    exact ⟨u, hu, by simp [hread, hset]⟩

end

section
/-! PROOFS of the statements on control flow (41_control_flow.md): the decoder on an encoded instruction, the
skips and the jumps. -/

/-! ### The decoder on an encoded instruction -/

namespace Sys2Proof

/-- The decoder undoes the encoder (30_encoding.md rules R52, R55): the fields of the word are the operands,
and its fixed bits select the instruction's own arm. -/
theorem decodeWord_encode {i : Instr} (h : i.WellFormed) : decodeWord (encode i) = .ok i := by
  cases i with
  | op00E0 | op00EE => rfl
  | op1NNN | op2NNN | opANNN | opBNNN => simp [encode, decodeWord]
  | op3XNN | op4XNN | op6XNN | op7XNN | opCXNN => simp [encode, decodeWord]
  | op5XY0 | op9XY0 => simp [encode, decodeWord]
  | op8XY0 | op8XY1 | op8XY2 | op8XY3 | op8XY4 | op8XY5 | op8XY6 | op8XY7 | op8XYE =>
    simp [encode, decodeWord, decodeFamily8]
  | opDXYN x y n => simp [encode, decodeWord, Nat.mod_eq_of_lt ((wellFormed_opDXYN x y n).1 h)]
  | opEX9E | opEXA1 => simp [encode, decodeWord, decodeFamilyE]
  | opFX07 | opFX15 | opFX18 | opFX0A | opFX1E | opFX29 | opFX33 | opFX55 | opFX65 =>
    simp [encode, decodeWord, decodeFamilyF]

end Sys2Proof

namespace Sys2Proof.Machine

variable {i : Instr} {s : State} {w : Word}

/-! ### Skips (rule R98) -/

/-- An instruction that skips on equality, as `3XNN` and `5XY0` do (rules R94, R96). -/
theorem exec_skipIf_eq {a b : Byte} (hexec : exec i s = .next (s.skipIf (a == b))) :
    ∃ t, exec i s = .next t ∧ ChangesOnly [.pc] s t ∧
      PcAdvances (if a.toNat = b.toNat then 4 else 2) s t :=
  ⟨_, hexec, changesOnly_skipIf s _, by simpa [BitVec.toNat_inj] using pcAdvances_skipIf s (a == b)⟩

/-- An instruction that skips on inequality, as `4XNN` and `9XY0` do (rules R95, R97). -/
theorem exec_skipIf_ne {a b : Byte} (hexec : exec i s = .next (s.skipIf (a != b))) :
    ∃ t, exec i s = .next t ∧ ChangesOnly [.pc] s t ∧
      PcAdvances (if a.toNat = b.toNat then 2 else 4) s t :=
  ⟨_, hexec, changesOnly_skipIf s _, by simpa [BitVec.toNat_inj] using pcAdvances_skipIf s (a != b)⟩

/-! ### Jumps -/

/-- `V0 + nnn` fits 16 bits, so the modulo of rule R93 never takes effect. -/
theorem extendByte_add_absolute_toNat (b : Byte) (nnn : Addr12) :
    (extendByte b + absolute nnn).toNat = b.toNat + nnn.toNat := by
  have hb := b.isLt
  have hnnn := nnn.isLt
  rw [BitVec.toNat_add, extendByte_toNat, absolute_toNat]
  omega

/-- A jump to the address it stands at leaves the very same state. -/
theorem setPc_of_eq (h : w = s.pc) : s.setPc w = s := by
  subst h
  rfl

/-- After a jump above 0xFFE the next fetch faults (rules R75, R91, R93). -/
theorem stepWith_setPc_faults (s : State) (hw : 0xFFE < w.toNat) (tickEn : Bool) (rand : Byte) :
    ∃ f, stepWith tickEn rand (s.setPc w) = .fault f ∧ f.cause = .addressOutOfRange := by
  obtain ⟨f, hf, hcause, -⟩ := raise_spec .addressOutOfRange ((s.setPc w).beginStep tickEn rand)
  exact ⟨f, (stepWith_of_fetchFault hw tickEn rand).trans hf, hcause⟩

end Sys2Proof.Machine

/-! ### The obligations -/

open Sys2Proof Sys2Proof.Machine

/-- Settles O29: the two skips on equality and the two on inequality, each by one lemma. -/
theorem registerSkips : Obligations.RegisterSkips :=
  fun x y nn _ =>
    ⟨decodeWord_encode (i := .op3XNN x nn) rfl, decodeWord_encode (i := .op4XNN x nn) rfl,
      decodeWord_encode (i := .op5XY0 x y) rfl, decodeWord_encode (i := .op9XY0 x y) rfl,
      exec_skipIf_eq rfl, exec_skipIf_ne rfl, exec_skipIf_eq rfl, exec_skipIf_ne rfl⟩

/-- Settles O30: both jumps are one update of `PC`, by a target that no reduction touches. -/
theorem jumpsSetPc : Obligations.JumpsSetPc := by
  intro nnn s
  have habs := absolute_toNat nnn
  have hsum := extendByte_add_absolute_toNat (s.readV 0) nnn
  refine ⟨decodeWord_encode (i := .op1NNN nnn) rfl, decodeWord_encode (i := .opBNNN nnn) rfl,
    ⟨_, rfl, habs, changesOnly_setPc s _, fun hself => ?_, fun hpast => ?_⟩,
    ⟨_, rfl, hsum, changesOnly_setPc s _, fun hpast => ?_⟩⟩
  · exact setPc_of_eq (BitVec.eq_of_toNat_eq (habs.trans hself.symm))
  · exact stepWith_setPc_faults s (habs ▸ hpast)
  · exact stepWith_setPc_faults s (hsum ▸ hpast)

end

section
/-! PROOFS of the statements on register load and arithmetic (42_load_alu.md): the instructions that write one
register and no flag. -/

namespace Sys2Proof.Machine

variable {i : Instr} {s : State} {x : RegIdx} {b : Byte} {Q : State → Prop}

/-- An instruction that is one register write, as `6XNN`, `7XNN` and `8XY0` to `8XY3` are (rules R110 to R115):
what the register then holds is all that is left to say of it. -/
theorem exec_setRegister (hexec : exec i s = setRegister s x b) (hQ : ∀ t, t.readV x = b → Q t) :
    ∃ t, exec i s = .next t ∧ Q t ∧
      ChangesOnlyRegs [x] s t ∧ PcAdvances 2 s t ∧ ChangesOnly [.v, .pc] s t := by
  obtain ⟨t, ht, hread, hframe⟩ := setRegister_spec s x b
  exact ⟨t, hexec.trans ht, hQ t hread, hframe⟩

end Sys2Proof.Machine

/-! ### The obligations -/

open Sys2Proof Sys2Proof.Machine

/-- Settles O22: each is one register write, of the immediate and of the sum of two bytes, which wraps. -/
theorem loadAndAddImmediate : Obligations.LoadAndAddImmediate := by
  intro x nn s
  refine ⟨decodeWord_encode (i := .op6XNN x nn) rfl, decodeWord_encode (i := .op7XNN x nn) rfl,
    exec_setRegister rfl fun t ht => ht, exec_setRegister rfl fun t ht => ?_⟩
  rw [ht, BitVec.toNat_add]

/-- Settles O23: each is one register write, of a value whose bits the bitwise operation gives. -/
theorem copyAndLogic : Obligations.CopyAndLogic := by
  intro x y s
  refine ⟨decodeWord_encode (i := .op8XY0 x y) rfl, decodeWord_encode (i := .op8XY1 x y) rfl,
    decodeWord_encode (i := .op8XY2 x y) rfl, decodeWord_encode (i := .op8XY3 x y) rfl,
    exec_setRegister rfl fun t ht => ht, exec_setRegister rfl fun t ht k _ => ?_,
    exec_setRegister rfl fun t ht k _ => ?_, exec_setRegister rfl fun t ht k _ => ?_⟩
  · rw [ht, BitVec.getLsbD_or]
  · rw [ht, BitVec.getLsbD_and]
  · rw [ht, BitVec.getLsbD_xor]

end

section
/-! PROOFS of the statements on the address register and memory (43_index_memory.md): the instructions that
set `I`. -/

namespace Sys2Proof.Machine

variable {i : Instr} {s : State} {w : Word} {n : Nat}

/-- An instruction that is one write of `I`, as `ANNN`, `FX1E` and `FX29` are (rules R130 to R132): the value
written is all that is left to say of it. -/
theorem exec_setI (hexec : exec i s = .next (s.setI w).advance) (hw : w.toNat = n) :
    ∃ t, exec i s = .next t ∧ t.i.toNat = n ∧ PcAdvances 2 s t ∧ ChangesOnly [.i, .pc] s t :=
  ⟨_, hexec, hw, pcAdvances_advance (s.setI w), (changesOnly_setI s w).append (changesOnly_advance _)⟩

end Sys2Proof.Machine

/-! ### The obligations -/

open Sys2Proof Sys2Proof.Machine

/-- Settles O34: each is one write of `I`, of an address that fits and of the sum of two words, which wraps. -/
theorem loadAndAddIndex : Obligations.LoadAndAddIndex := by
  intro nnn x s
  refine ⟨decodeWord_encode (i := .opANNN nnn) rfl, decodeWord_encode (i := .opFX1E x) rfl,
    exec_setI rfl (absolute_toNat nnn), exec_setI rfl ?_⟩
  rw [BitVec.toNat_add, extendByte_toNat]

end

section
/-! PROOFS of the statements on the display (44_display.md): `00E0`, and who writes `NeedDraw`. -/

namespace Sys2Proof.Machine

variable {i : Instr} {s t : State}

/-! ### Who writes `NeedDraw` (rule R146) -/

theorem needDraw_mem_writes :
    Part.needDraw ∈ i.writes ↔ i = .op00E0 ∨ ∃ x y n, i = .opDXYN x y n := by
  cases i <;> simp [Instr.writes]

theorem exec00E0_next_needDraw (h : exec .op00E0 s = .next t) : t.needDraw = true := by
  cases h
  rfl

/-- A draw that went on had its rows in range, so it took the branch that sets `NeedDraw`. -/
theorem execDXYN_next_needDraw {x y : RegIdx} {n : Nat} (h : exec (.opDXYN x y n) s = .next t) :
    t.needDraw = true := by
  have hfault : ¬ (n > 0 ∧ s.i.toNat + n - 1 > 0xFFF) := by
    simpa [Instr.faultIn] using (runsAsTabled_of_exec_next h).faultless
  have hgoes := h.symm.trans (execDXYN_of_inRange (by omega) x y)
  cases hgoes
  rfl

/-- No handler clears `NeedDraw`: the two that write it set it, and the others leave it. -/
theorem exec_next_keeps_needDraw (h : exec i s = .next t) (hs : s.needDraw = true) :
    t.needDraw = true := by
  by_cases hmem : Part.needDraw ∈ i.writes
  · obtain rfl | ⟨x, y, n, rfl⟩ := needDraw_mem_writes.1 hmem
    · exact exec00E0_next_needDraw h
    · exact execDXYN_next_needDraw h
  · have hsame : t.needDraw = s.needDraw := (runsAsTabled_of_exec_next h).frame .needDraw hmem
    exact hsame.trans hs

/-! ### `NeedDraw` over a `Step` -/

variable {tickEn : Bool} {rand : Byte}

theorem stepWith_next_keeps_needDraw (h : stepWith tickEn rand s = .next t) (hs : s.needDraw = true) :
    t.needDraw = true := by
  obtain ⟨i, -, hexec⟩ := stepWith_eq_next h
  exact exec_next_keeps_needDraw hexec (by simpa using hs)

/-- The tick and the fetch, all that a faulting `Step` keeps, do not touch `NeedDraw`. -/
theorem stepWith_fault_needDraw {f : Fault} (h : stepWith tickEn rand s = .fault f) :
    f.after.needDraw = s.needDraw := by
  rcases stepWith_eq_fault h with ⟨-, hafter⟩ | ⟨-, hafter⟩ <;> simp [hafter]

end Sys2Proof.Machine

/-! ### The obligations -/

open Sys2Proof Sys2Proof.Machine

/-- Settles O46: the two handlers that write `NeedDraw` set it, a fault leaves the state its handler was given,
and only the host's acknowledge clears it. -/
theorem needDrawIsSticky : Obligations.NeedDrawIsSticky :=
  ⟨fun _ _ => exec00E0_next_needDraw, fun _ _ _ _ _ => execDXYN_next_needDraw,
    fun _ _ _ hs => ⟨fun _ h => stepWith_next_keeps_needDraw h hs,
      fun _ h => (stepWith_fault_needDraw h).trans hs⟩,
    fun _ _ _ _ _ h => congrArg State.needDraw (exec_eq_fault h).2, fun _ => rfl⟩

/-- Settles O41: the handler puts the blank grid in place of whatever grid there was, sets `NeedDraw` and moves
on, and its frame is that of these three updates. -/
theorem clearDisplayBlanks : Obligations.ClearDisplayBlanks :=
  ⟨decodeWord_encode (i := .op00E0) rfl, fun s =>
    ⟨_, rfl, blankDisplay_cell, rfl, pcAdvances_advance _,
      ((changesOnly_setDisp s _).append (changesOnly_setNeedDraw _ _)).append (changesOnly_advance _)⟩⟩

end

section
/-! PROOFS of the statements on the keypad and the timers (45_keypad_timers.md): the three instructions that
read or write a timer. -/

namespace Sys2Proof.Machine

variable {i j : Instr} {s t : State} {tickEn : Bool} {rand : Byte}

/-! ### The instruction at `PC` -/

/-- The word at `PC` decodes to one instruction only. -/
theorem State.AboutToRun.unique (hi : s.AboutToRun i) (hj : s.AboutToRun j) : i = j :=
  Except.ok.inj (hi.decodes.symm.trans hj.decodes)

/-! ### The timer a `Step` does not write (rules R72, R73) -/

/-- A `Step` that goes on leaves the ticked `DT` unless its instruction is `FX15`. -/
theorem stepWith_next_dt_toNat (hi : s.AboutToRun i) (h : stepWith tickEn rand s = .next t)
    (hno : ∀ x, i ≠ .opFX15 x) : t.dt.toNat = tickedBy tickEn s.dt := by
  rw [stepWith_next_dt h fun x hx => hno x (hi.unique hx), beginStep_dt_toNat, tickedBy]

/-- A `Step` that goes on leaves the ticked `ST` unless its instruction is `FX18`. -/
theorem stepWith_next_st_toNat (hi : s.AboutToRun i) (h : stepWith tickEn rand s = .next t)
    (hno : ∀ x, i ≠ .opFX18 x) : t.st.toNat = tickedBy tickEn s.st := by
  rw [stepWith_next_st h fun x hx => hno x (hi.unique hx), beginStep_st_toNat, tickedBy]

end Sys2Proof.Machine

/-! ### The obligations -/

open Sys2Proof Sys2Proof.Machine

/-- Settles O50: the handlers are one write of a register or of a timer; in a `Step` they run on the ticked
timers, and the timer an instruction does not write stays as the tick left it. -/
theorem timerAccess : Obligations.TimerAccess := by
  intro x s
  refine ⟨decodeWord_encode (i := .opFX07 x) rfl, decodeWord_encode (i := .opFX15 x) rfl,
    decodeWord_encode (i := .opFX18 x) rfl, exec_setRegister rfl fun t ht => ht,
    ⟨_, rfl, rfl, pcAdvances_advance _, (changesOnly_setDt s _).append (changesOnly_advance _)⟩,
    ⟨_, rfl, rfl, pcAdvances_advance _, (changesOnly_setSt s _).append (changesOnly_advance _)⟩,
    fun tickEn rand => ⟨fun h => ?_, fun h => ?_, fun h => ?_⟩⟩
  · obtain ⟨t, ht, hread⟩ := stepWith_FX07 h tickEn rand
    refine ⟨t, ht, ?_, stepWith_next_dt_toNat h ht (by simp)⟩
    rw [hread, beginStep_dt_toNat, tickedBy]
  · obtain ⟨t, ht, hset⟩ := stepWith_FX15 h tickEn rand
    exact ⟨t, ht, hset, stepWith_next_st_toNat h ht (by simp)⟩
  · obtain ⟨t, ht, hset⟩ := stepWith_FX18 h tickEn rand
    exact ⟨t, ht, hset, stepWith_next_dt_toNat h ht (by simp)⟩

end

section
/-! PROOFS of the statements on reset and loading (70_reset_and_hazards.md): the two branches of `LoadROM`. -/

namespace Sys2Proof.Machine

variable {s : State} {bytes : List Byte}

/-! ### The branches of `LoadROM` (rules R194, R195) -/

theorem hostLoadROM_of_fits (h : bytes.length ≤ 3584) :
    hostLoadROM s bytes = (s.setMem (Memory.writeBytes s.mem 0x200 bytes), .ok) :=
  if_neg (Nat.not_lt.2 h)

theorem hostLoadROM_of_tooLarge (h : 3584 < bytes.length) : hostLoadROM s bytes = (s, .romTooLarge) :=
  if_pos h

/-- What loading an image leaves in each byte: 3584 bytes from 0x200 end with the memory, so no byte of the
image falls outside it. -/
theorem byteAt_loadedImage (hwf : Memory.wf s.mem = true) (h : bytes.length ≤ 3584) (a : Nat) :
    (s.setMem (Memory.writeBytes s.mem 0x200 bytes)).byteAt a =
      if hk : 0x200 ≤ a ∧ a < 0x200 + bytes.length then bytes[a - 0x200]'(by omega) else s.byteAt a :=
  Memory.read_writeBytes hwf (fun _ => Nat.add_le_add_left h 0x200) a

end Sys2Proof.Machine

/-! ### The obligations -/

open Sys2Proof Sys2Proof.Machine

/-- Settles O54: an image that fits is one run of stores at 0x200, read back inside the run and outside it; a
larger one takes the branch that returns the state it was given. -/
theorem loadROMCopiesImage : Obligations.LoadROMCopiesImage := by
  intro s bytes hwf
  refine ⟨fun hfits => ⟨_, hostLoadROM_of_fits hfits, fun k hk => ?inside, fun a hout => ?outside,
    changesOnly_setMem s _⟩, hostLoadROM_of_tooLarge⟩
  case inside =>
    have hin : 0x200 ≤ 0x200 + k ∧ 0x200 + k < 0x200 + bytes.length := by omega
    simp only [byteAt_loadedImage hwf hfits, dif_pos hin, Nat.add_sub_cancel_left]
  case outside => rw [byteAt_loadedImage hwf hfits, dif_neg hout]

end

section
/-! PROOFS of the statements on encoding (30_encoding.md): decoder and encoder undo each other, and the decoder
against the opcode map. -/

namespace Sys2Proof

variable {w : Word} {i : Instr}

/-! ### A word that decodes is the encoding of its instruction (rules R51, R52, R55) -/

/-- The decoder took this instruction from all the bits of this word. -/
def Instr.IsReadFrom (i : Instr) (w : Word) : Prop := i.WellFormed ∧ encode i = w

theorem isReadFrom_of_decodeFamily0 (h : decodeFamily0 w = .ok i) : i.IsReadFrom w := by
  unfold decodeFamily0 at h
  split at h
  next hw => cases h; exact ⟨rfl, hw.symm⟩
  split at h
  next hw => cases h; exact ⟨rfl, hw.symm⟩
  cases h

theorem isReadFrom_of_decodeFamily8 (hop : fieldOp w = 0x8) (h : decodeFamily8 w = .ok i) :
    i.IsReadFrom w := by
  unfold decodeFamily8 at h
  split at h
  all_goals cases h
  all_goals exact ⟨rfl, eq_formatXYN w hop ‹_›⟩

theorem isReadFrom_of_decodeFamilyE (hop : fieldOp w = 0xE) (h : decodeFamilyE w = .ok i) :
    i.IsReadFrom w := by
  unfold decodeFamilyE at h
  split at h
  all_goals cases h
  all_goals exact ⟨rfl, eq_formatXNN w hop ‹_›⟩

theorem isReadFrom_of_decodeFamilyF (hop : fieldOp w = 0xF) (h : decodeFamilyF w = .ok i) :
    i.IsReadFrom w := by
  unfold decodeFamilyF at h
  split at h
  all_goals cases h
  all_goals exact ⟨rfl, eq_formatXNN w hop ‹_›⟩

/-- The row count of a draw is a 4-bit field, so the encoder writes it back whole. -/
theorem isReadFrom_opDXYN (hop : fieldOp w = 0xD) :
    (Instr.opDXYN (fieldX w) (fieldY w) (fieldN w)).IsReadFrom w := by
  have hlt := fieldN_lt w
  exact ⟨(wellFormed_opDXYN _ _ _).2 hlt, eq_formatXYN w hop (Nat.mod_eq_of_lt hlt).symm⟩

theorem isReadFrom_of_decodeWord (h : decodeWord w = .ok i) : i.IsReadFrom w := by
  unfold decodeWord at h
  -- Family `k` of rule R54 is case `h_(k + 1)`.
  split at h
  case h_1 => exact isReadFrom_of_decodeFamily0 h
  case h_9 hop => exact isReadFrom_of_decodeFamily8 hop h
  case h_15 hop => exact isReadFrom_of_decodeFamilyE hop h
  case h_16 hop => exact isReadFrom_of_decodeFamilyF hop h
  case h_14 hop => cases h; exact isReadFrom_opDXYN hop
  case h_2 hop | h_3 hop | h_11 hop | h_12 hop => cases h; exact ⟨rfl, eq_formatNNN w hop⟩
  case h_4 hop | h_5 hop | h_7 hop | h_8 hop | h_13 hop =>
    cases h
    exact ⟨rfl, eq_formatXNN w hop rfl⟩
  case h_6 hop | h_10 hop =>
    split at h
    next hn => cases h; exact ⟨rfl, eq_formatXYN w hop hn⟩
    cases h
  case h_17 => cases h

/-! ### The opcode map (rules R56, R62) -/

theorem row_mem_opcodeTable (i : Instr) : i.row ∈ opcodeTable := by
  cases i <;> simp [Instr.row, opcodeTable, instrOfEachRow]

theorem eq_row_of_mem_opcodeTable {r : OpcodeRow} (hr : r ∈ opcodeTable) : ∃ i : Instr, r = i.row := by
  obtain ⟨i, -, rfl⟩ := List.mem_map.1 hr
  exact ⟨i, rfl⟩

theorem row_matches_encode : ∀ i : Instr, i.row.Matches (encode i)
  | .op00E0 => Laws.EncodeMatchesRow.op00E0
  | .op00EE => Laws.EncodeMatchesRow.op00EE
  | .op1NNN nnn => Laws.EncodeMatchesRow.op1NNN nnn
  | .op2NNN nnn => Laws.EncodeMatchesRow.op2NNN nnn
  | .op3XNN x nn => Laws.EncodeMatchesRow.op3XNN x nn
  | .op4XNN x nn => Laws.EncodeMatchesRow.op4XNN x nn
  | .op5XY0 x y => Laws.EncodeMatchesRow.op5XY0 x y
  | .op9XY0 x y => Laws.EncodeMatchesRow.op9XY0 x y
  | .op6XNN x nn => Laws.EncodeMatchesRow.op6XNN x nn
  | .op7XNN x nn => Laws.EncodeMatchesRow.op7XNN x nn
  | .op8XY0 x y => Laws.EncodeMatchesRow.op8XY0 x y
  | .op8XY1 x y => Laws.EncodeMatchesRow.op8XY1 x y
  | .op8XY2 x y => Laws.EncodeMatchesRow.op8XY2 x y
  | .op8XY3 x y => Laws.EncodeMatchesRow.op8XY3 x y
  | .op8XY4 x y => Laws.EncodeMatchesRow.op8XY4 x y
  | .op8XY5 x y => Laws.EncodeMatchesRow.op8XY5 x y
  | .op8XY6 x y => Laws.EncodeMatchesRow.op8XY6 x y
  | .op8XY7 x y => Laws.EncodeMatchesRow.op8XY7 x y
  | .op8XYE x y => Laws.EncodeMatchesRow.op8XYE x y
  | .opANNN nnn => Laws.EncodeMatchesRow.opANNN nnn
  | .opBNNN nnn => Laws.EncodeMatchesRow.opBNNN nnn
  | .opCXNN x nn => Laws.EncodeMatchesRow.opCXNN x nn
  | .opDXYN x y n => Laws.EncodeMatchesRow.opDXYN x y n
  | .opEX9E x => Laws.EncodeMatchesRow.opEX9E x
  | .opEXA1 x => Laws.EncodeMatchesRow.opEXA1 x
  | .opFX07 x => Laws.EncodeMatchesRow.opFX07 x
  | .opFX15 x => Laws.EncodeMatchesRow.opFX15 x
  | .opFX18 x => Laws.EncodeMatchesRow.opFX18 x
  | .opFX0A x => Laws.EncodeMatchesRow.opFX0A x
  | .opFX1E x => Laws.EncodeMatchesRow.opFX1E x
  | .opFX29 x => Laws.EncodeMatchesRow.opFX29 x
  | .opFX33 x => Laws.EncodeMatchesRow.opFX33 x
  | .opFX55 x => Laws.EncodeMatchesRow.opFX55 x
  | .opFX65 x => Laws.EncodeMatchesRow.opFX65 x

theorem row_matches_of_decodeWord (h : decodeWord w = .ok i) : i.row.Matches w := by
  obtain ⟨-, rfl⟩ := isReadFrom_of_decodeWord h
  exact row_matches_encode i

theorem fieldOp_of_and_F000 {m : Word} (h : w &&& 0xF000#16 = m) : fieldOp w = m.toNat / 4096 := by
  rw [← fieldOp_and_F000, h, fieldOp_eq]

theorem fields_of_and_F00F {m : Word} (h : w &&& 0xF00F#16 = m) :
    fieldOp w = m.toNat / 4096 ∧ fieldN w = m.toNat % 16 := by
  obtain ⟨hop, hn⟩ := fields_and_F00F w
  rw [← hop, ← hn, h]
  exact ⟨fieldOp_eq m, fieldN_eq m⟩

theorem fields_of_and_F0FF {m : Word} (h : w &&& 0xF0FF#16 = m) :
    fieldOp w = m.toNat / 4096 ∧ (fieldNN w).toNat = m.toNat % 256 := by
  obtain ⟨hop, hnn⟩ := fields_and_F0FF w
  rw [← hop, ← hnn, h]
  exact ⟨fieldOp_eq m, fieldNN_toNat m⟩

theorem eq_of_and_FFFF {m : Word} (h : w &&& 0xFFFF#16 = m) : w = m := by
  rw [← h, show (0xFFFF#16) = BitVec.allOnes 16 from rfl, BitVec.and_allOnes]

/-- A word that agrees with a row decodes, to an instruction of that row: the fields under the mask are all the
decoder selects by. -/
theorem row_decodeWord_of_matches (i : Instr) (h : i.row.Matches w) :
    (decodeWord w).map Instr.row = .ok i.row := by
  cases i with
  | op00E0 | op00EE => rw [eq_of_and_FFFF h]; rfl
  | op1NNN | op2NNN | op3XNN | op4XNN | op6XNN | op7XNN | opANNN | opBNNN | opCXNN | opDXYN =>
    simp [decodeWord, fieldOp_of_and_F000 h, Instr.row, Except.map]
  | op5XY0 | op9XY0 =>
    obtain ⟨hop, hn⟩ := fields_of_and_F00F h
    simp [decodeWord, hop, hn, Instr.row, Except.map]
  | op8XY0 | op8XY1 | op8XY2 | op8XY3 | op8XY4 | op8XY5 | op8XY6 | op8XY7 | op8XYE =>
    obtain ⟨hop, hn⟩ := fields_of_and_F00F h
    simp [decodeWord, decodeFamily8, hop, hn, Instr.row, Except.map]
  | opEX9E | opEXA1 =>
    obtain ⟨hop, hnn⟩ := fields_of_and_F0FF h
    simp [decodeWord, decodeFamilyE, hop, hnn, Instr.row, Except.map]
  | opFX07 | opFX15 | opFX18 | opFX0A | opFX1E | opFX29 | opFX33 | opFX55 | opFX65 =>
    obtain ⟨hop, hnn⟩ := fields_of_and_F0FF h
    simp [decodeWord, decodeFamilyF, hop, hnn, Instr.row, Except.map]

/-- A word is an instruction exactly if a row of the opcode map agrees with it. -/
theorem decodes_iff_matches_row (w : Word) :
    (∃ i, decodeWord w = .ok i) ↔ ∃ r ∈ opcodeTable, r.Matches w := by
  constructor
  · rintro ⟨i, hi⟩
    exact ⟨i.row, row_mem_opcodeTable i, row_matches_of_decodeWord hi⟩
  · rintro ⟨r, hr, hm⟩
    obtain ⟨i, rfl⟩ := eq_row_of_mem_opcodeTable hr
    have hrow := row_decodeWord_of_matches i hm
    match hd : decodeWord w with
    | .ok j => exact ⟨j, rfl⟩
    | .error e => rw [hd] at hrow; cases hrow

/-- Two rows that agree with one word are both the row of what it decodes to. -/
theorem matching_row_unique {r r' : OpcodeRow} (hr : r ∈ opcodeTable) (hr' : r' ∈ opcodeTable)
    (hm : r.Matches w) (hm' : r'.Matches w) : r = r' := by
  obtain ⟨i, rfl⟩ := eq_row_of_mem_opcodeTable hr
  obtain ⟨i', rfl⟩ := eq_row_of_mem_opcodeTable hr'
  exact Except.ok.inj ((row_decodeWord_of_matches i hm).symm.trans (row_decodeWord_of_matches i' hm'))

/-- A word no row agrees with is refused by its own name (rule R57). -/
theorem decodeWord_of_no_row (h : ¬ ∃ r ∈ opcodeTable, r.Matches w) :
    decodeWord w = .error (.unknownOpcode w) := by
  match hd : decodeWord w with
  | .ok i => exact absurd ((decodes_iff_matches_row w).1 ⟨i, hd⟩) h
  | .error e => rw [decodeWord_error hd]

end Sys2Proof

/-! ### The obligations -/

open Sys2Proof Sys2Proof.Machine

/-- Settles O2: decoding the bytes of a word is decoding the word, and the decoder undoes the encoder on words. -/
theorem decodeAfterEncode : Obligations.DecodeAfterEncode := by
  intro i rest hwf
  rw [encodeBytes, decodeBytes_bytesOfWord, decodeWord_encode hwf]

/-- Settles O3: each branch of the decoder tests every bit it does not keep as an operand. -/
theorem encodeAfterDecode : Obligations.EncodeAfterDecode := fun _ _ => isReadFrom_of_decodeWord

/-- Settles O4: a matching row fixes the fields the decoder selects by, and a decoded instruction's row matches. -/
theorem wordsMatchOneRowOrNone : Obligations.WordsMatchOneRowOrNone :=
  fun w => ⟨decodes_iff_matches_row w, fun _ hr _ hr' => matching_row_unique hr hr',
    fun i hi => ⟨row_mem_opcodeTable i, row_matches_of_decodeWord hi⟩, decodeWord_of_no_row⟩

/-- Settles O1: seven words by the encoder they come from, three by the decoder's own evaluation. -/
theorem writtenWordsDecode : Obligations.WrittenWordsDecode :=
  ⟨decodeWord_encode (i := .op6XNN 0xA 0x18) rfl, decodeWord_encode (i := .op1NNN 0x200) rfl,
    decodeWord_encode (i := .op00EE) rfl, decodeWord_encode (i := .op8XYE 1 2) rfl,
    decodeWord_encode (i := .opDXYN 1 2 15) rfl, decodeWord_encode (i := .opEX9E 15) rfl,
    decodeWord_encode (i := .opFX65 1) rfl, rfl, rfl, rfl⟩

end

section
/-! PROOFS of the statements on the outcomes of handlers and `Step`s (40_step_cycle.md, 60_exceptions.md): which
fault, what it leaves, that it comes again, and what an instruction that goes on may have written. -/

namespace Sys2Proof.Machine

variable {i : Instr} {s t : State} {tickEn : Bool} {rand : Byte} {f : Fault} {c : FaultCause}

/-! ### What the tick and the fetch leave (rules R72, R74, R75) -/

theorem beginStep_dt_ticked (s : State) (tickEn : Bool) (rand : Byte) :
    (s.beginStep tickEn rand).dt.toNat = tickedBy tickEn s.dt := by
  rw [beginStep_dt_toNat, tickedBy]

theorem beginStep_st_ticked (s : State) (tickEn : Bool) (rand : Byte) :
    (s.beginStep tickEn rand).st.toNat = tickedBy tickEn s.st := by
  rw [beginStep_st_toNat, tickedBy]

/-- A raise as the statements ask for it. -/
theorem fault_of_eq_raise {r : Result} (h : r = raise c s) :
    ∃ f, r = .fault f ∧ f.cause = c ∧ f.after = s :=
  h ▸ raise_spec c s

/-! ### The fault of a `Step`, as a function of the state it begins in (rules R79, R160, R167) -/

/-- The fault a `Step` from this state raises, if any: of the fetch, of the decoder or of the handler. -/
def State.stepFault (s : State) : Option FaultCause :=
  if 0xFFE < s.pc.toNat then some .addressOutOfRange
  else
    match decodeWord s.wordAtPc with
    | .error _ => some .unknownOpcode
    | .ok i => i.faultIn s

theorem stepFault_of_fetchFault (h : 0xFFE < s.pc.toNat) : s.stepFault = some .addressOutOfRange :=
  if_pos h

theorem stepFault_of_unknown (h : s.pc.toNat ≤ 0xFFE) {e : DecodeError}
    (he : decodeWord s.wordAtPc = .error e) : s.stepFault = some .unknownOpcode := by
  rw [State.stepFault, if_neg (Nat.not_lt.2 h), he]

theorem stepFault_of_decoded (h : s.pc.toNat ≤ 0xFFE) (hi : decodeWord s.wordAtPc = .ok i) :
    s.stepFault = i.faultIn s := by
  rw [State.stepFault, if_neg (Nat.not_lt.2 h), hi]

/-- No fault condition of a handler reads anything but `SP`, `I` and the registers. -/
theorem faultIn_congr (i : Instr) (hsp : t.sp = s.sp) (hi : t.i = s.i)
    (hv : ∀ r, t.readV r = s.readV r) : i.faultIn t = i.faultIn s := by
  cases i <;> simp only [Instr.faultIn, hsp, hi, hv]

theorem wordAtPc_congr (hpc : t.pc = s.pc) (hmem : t.mem = s.mem) : t.wordAtPc = s.wordAtPc := by
  simp only [State.wordAtPc, State.byteAt, hpc, hmem]

/-- The fault of a `Step` depends on no timer, on no input and not on `IR`. -/
theorem stepFault_congr (hframe : ChangesOnly [.dt, .st, .ir, .env] s t) : t.stepFault = s.stepFault := by
  have hpc : t.pc = s.pc := hframe .pc (by decide)
  have hmem : t.mem = s.mem ∧ _ := hframe .mem (by decide)
  have hfault := fun i => faultIn_congr i (hframe .sp (by decide)) (hframe .i (by decide))
    (hframe .v (by decide))
  simp only [State.stepFault, hpc, wordAtPc_congr hpc hmem.1, hfault]

/-- A handler raises exactly the fault its condition gives. -/
theorem exec_eq_raise (h : i.faultIn s = some c) : exec i s = raise c s := by
  rcases exec_goesOnOrRaises i s with ⟨t, -, hrun⟩ | ⟨c', hc', hraise⟩
  · cases hrun.faultless.symm.trans h
  · cases hc'.symm.trans h
    exact hraise

theorem exec_goesOn (h : i.faultIn s = none) : ∃ t, exec i s = .next t := by
  rcases exec_goesOnOrRaises i s with ⟨t, ht, -⟩ | ⟨c, hc, -⟩
  · exact ⟨t, ht⟩
  · cases h.symm.trans hc

theorem faultIn_handed (i : Instr) (s : State) (tickEn : Bool) (rand : Byte) (w : Word) :
    i.faultIn (s.handed tickEn rand w) = i.faultIn s :=
  faultIn_congr i (by simp) (by simp) (by simp)

/-- A `Step` that faults raises the fault of the state it began in. -/
theorem stepFault_of_stepWith_fault (h : stepWith tickEn rand s = .fault f) :
    s.stepFault = some f.cause := by
  rcases stepWith_cases s tickEn rand with ⟨hpc, hs⟩ | ⟨hpc, ⟨e, he⟩, hs⟩ | ⟨hpc, i, hi, hs⟩
  · rw [stepFault_of_fetchFault hpc, (raise_eq_fault (hs.symm.trans h)).1]
  · rw [stepFault_of_unknown hpc he, (raise_eq_fault (hs.symm.trans h)).1]
  · rw [stepFault_of_decoded hpc hi, ← (exec_eq_fault (hs.symm.trans h)).1, faultIn_handed]

/-- A state with a fault raises it, whatever the inputs. -/
theorem stepWith_fault_of_stepFault (h : s.stepFault = some c) (tickEn : Bool) (rand : Byte) :
    ∃ f, stepWith tickEn rand s = .fault f ∧ f.cause = c := by
  obtain ⟨u, hu⟩ : ∃ u, stepWith tickEn rand s = raise c u := by
    rcases stepWith_cases s tickEn rand with ⟨hpc, hs⟩ | ⟨hpc, ⟨e, he⟩, hs⟩ | ⟨hpc, i, hi, hs⟩
    · cases (stepFault_of_fetchFault hpc).symm.trans h
      exact ⟨_, hs⟩
    · cases (stepFault_of_unknown hpc he).symm.trans h
      exact ⟨_, hs⟩
    · rw [stepFault_of_decoded hpc hi] at h
      exact ⟨_, hs.trans (exec_eq_raise ((faultIn_handed i s tickEn rand _).trans h))⟩
  obtain ⟨f, hf, hcause, -⟩ := fault_of_eq_raise hu
  exact ⟨f, hf, hcause⟩

/-! ### The state a faulting `Step` leaves (rule R80) -/

theorem stepWith_fault_frame (h : stepWith tickEn rand s = .fault f) :
    ChangesOnly [.dt, .st, .ir, .env] s f.after := by
  rcases stepWith_eq_fault h with ⟨-, hafter⟩ | ⟨-, hafter⟩ <;> rw [hafter]
  · exact (changesOnly_beginStep s tickEn rand).mono (by decide)
  · exact changesOnly_handed s tickEn rand _

theorem stepWith_fault_dt (h : stepWith tickEn rand s = .fault f) :
    f.after.dt.toNat = tickedBy tickEn s.dt := by
  rw [(stepWith_fault_timers h).1, beginStep_dt_ticked]

theorem stepWith_fault_st (h : stepWith tickEn rand s = .fault f) :
    f.after.st.toNat = tickedBy tickEn s.st := by
  rw [(stepWith_fault_timers h).2, beginStep_st_ticked]

/-- `IR` stays where the fetch fails and holds the word where it succeeds (rules R23, R75). -/
theorem stepWith_fault_ir (h : stepWith tickEn rand s = .fault f) :
    f.after.ir = if 0xFFE < s.pc.toNat then s.ir else s.wordAtPc := by
  rcases stepWith_eq_fault h with ⟨hpc, hafter⟩ | ⟨hpc, hafter⟩
  · rw [hafter, if_pos hpc, beginStep_ir]
  · rw [hafter, if_neg (Nat.not_lt.2 hpc), setIr_ir]

/-! ### The registers an instruction writes (rules R10, R11) -/

/-- Two writes in a row, of the flag and of the result, leave every third register (rule R123). -/
theorem readV_flagThenResult_of_ne {x r : RegIdx} (hr : ¬ (r = x ∨ r = vF)) (a b : Byte) :
    ((s.writeV vF a).writeV x b).readV r = s.readV r := by
  obtain ⟨hx, hF⟩ := not_or.1 hr
  rw [readV_writeV_of_ne _ hx, readV_writeV_of_ne _ hF]

/-- A draw that went on had its rows inside the memory, and left the drawn canvas. -/
theorem execDXYN_eq_next {x y : RegIdx} {n : Nat} (h : execDXYN x y n s = .next t) :
    (n = 0 ∨ s.i.toNat + n ≤ 0x1000) ∧
      t = (((s.writeV vF (flagByte (s.drawn x y n).collision)).setDisp
        (s.drawn x y n).disp).setNeedDraw true).advance := by
  by_cases hin : n = 0 ∨ s.i.toNat + n ≤ 0x1000
  · cases (execDXYN_of_inRange hin x y).symm.trans h
    exact ⟨hin, rfl⟩
  · cases (execDXYN_of_outOfRange (by omega) (by omega) x y).symm.trans h

/-- A register load that went on had its bytes inside the memory. -/
theorem execFX65_eq_next {x : RegIdx} (h : execFX65 x s = .next t) :
    s.i.toNat + x.val ≤ 0xFFF ∧
      t = (s.loadRegs 0 (Memory.readBytes s.mem s.i.toNat (x.val + 1))).advance := by
  by_cases hin : s.i.toNat + x.val ≤ 0xFFF
  · cases (execFX65_of_inRange hin).symm.trans h
    exact ⟨hin, rfl⟩
  · cases (execFX65_of_outOfRange (by omega)).symm.trans h

/-- A key wait that went on is still waiting, or has taken a key. -/
theorem execFX0A_eq_next {x : RegIdx} (h : execFX0A x s = .next t) :
    t = s.setWaitInput true ∨ ∃ b, t = (((s.setWaitInput true).writeV x b).setWaitInput false).advance := by
  match hk : s.lowestKey with
  | none => exact .inl (Host.Outcome.next.inj (h.symm.trans (execFX0A_of_none hk x)))
  | some k => exact .inr ⟨_, Host.Outcome.next.inj (h.symm.trans (execFX0A_of_some hk x))⟩

/-- What registers loading `V0..VX` from `I` leaves (rule R135). -/
theorem readV_loadedFromI (s : State) (x r : RegIdx) :
    (s.loadRegs 0 (Memory.readBytes s.mem s.i.toNat (x.val + 1))).readV r =
      if r.val ≤ x.val then s.byteAt (s.effAddr r.val) else s.readV r := by
  rw [loadRegs_readV _ _ _ (by rw [Memory.length_readBytes]; omega)]
  simp only [Memory.length_readBytes]
  by_cases hr : r.val ≤ x.val
  · rw [dif_pos (by omega), if_pos hr]
    exact Memory.getElem_readBytes s.mem s.i.toNat (x.val + 1) r.val (by omega)
  · rw [dif_neg (by omega), if_neg hr]

theorem exec_next_regs (h : exec i s = .next t) {r : RegIdx} (hr : ¬ i.writesReg r) :
    t.readV r = s.readV r := by
  by_cases hv : Part.v ∈ i.writes
  · cases i with
    | op6XNN | op7XNN | op8XY0 | op8XY1 | op8XY2 | op8XY3 | opCXNN | opFX07 =>
      cases h
      exact readV_writeV_of_ne s hr _
    | op8XY4 | op8XY5 | op8XY6 | op8XY7 | op8XYE =>
      cases h
      exact readV_flagThenResult_of_ne hr _ _
    | opFX0A x =>
      obtain rfl | ⟨b, rfl⟩ := execFX0A_eq_next h
      · rfl
      · exact readV_writeV_of_ne _ hr b
    | opDXYN x y n =>
      obtain ⟨-, rfl⟩ := execDXYN_eq_next h
      exact readV_writeV_of_ne s hr _
    | opFX65 x =>
      obtain ⟨-, rfl⟩ := execFX65_eq_next h
      exact (readV_loadedFromI s x r).trans (if_neg hr)
    | _ => simp [Instr.writes] at hv
  · exact (runsAsTabled_of_exec_next h).frame .v hv r

/-! ### A word placed at `PC` (log entry 13) -/

/-- The first two of a run of bytes stored at `PC` are the word the fetch finds there (rule R36). -/
theorem wordAtPc_stored {hi lo : Byte} {rest : List Byte} (hwf : Memory.wf s.mem = true)
    (hin : s.pc.toNat + (hi :: lo :: rest).length ≤ Config.memSize) :
    (s.setMem (Memory.writeBytes s.mem s.pc.toNat (hi :: lo :: rest))).wordAtPc = wordOfBytes hi lo := by
  rw [State.wordAtPc, byteAt_setMem, byteAt_setMem, setMem_pc, Memory.read_writeBytes hwf fun _ => hin,
    Memory.read_writeBytes hwf fun _ => hin]
  simp

theorem tableWordBytes_toNat (w : Word) : tableWordBytes 16 w.toNat = bytesOfWord w := by
  rw [tableWordBytes, Nat.mod_eq_of_lt w.isLt, BitVec.ofNat_toNat, BitVec.setWidth_eq]

theorem decodeTableWord_encode (h : i.WellFormed) : decodeTableWord 16 (encode i).toNat = some i := by
  have hdec := decodeBytes_bytesOfWord (encode i) []
  rw [decodeWord_encode h, List.append_nil] at hdec
  rw [decodeTableWord, tableWordBytes_toNat, hdec]

theorem withFetchWord_of_le (h : s.pc.toNat ≤ 0xFFE) (w : Word) :
    s.withFetchWord 16 w.toNat = s.setMem (Memory.writeBytes s.mem s.pc.toNat (bytesOfWord w)) := by
  rw [State.withFetchWord, State.atFetchable, if_pos h, tableWordBytes_toNat]

theorem bytesOfWord_fit_at_pc (h : s.pc.toNat ≤ 0xFFE) (w : Word) :
    s.pc.toNat + (bytesOfWord w).length ≤ Config.memSize :=
  Nat.add_le_add_right h 2

theorem wordAtPc_placed (hwf : Memory.wf s.mem = true) (h : s.pc.toNat ≤ 0xFFE) (w : Word) :
    (s.setMem (Memory.writeBytes s.mem s.pc.toNat (bytesOfWord w))).wordAtPc = w :=
  (wordAtPc_stored hwf (bytesOfWord_fit_at_pc h w)).trans (wordOfBytes_bytes w)

theorem changesOnlyBytes_writeBytes {a : Nat} {bs : List Byte} (hwf : Memory.wf s.mem = true)
    (hin : a + bs.length ≤ Config.memSize) :
    ChangesOnlyBytes a bs.length s (s.setMem (Memory.writeBytes s.mem a bs)) := fun b hb =>
  (Memory.read_writeBytes hwf (fun _ => hin) b).trans (dif_neg hb)

end Sys2Proof.Machine

/-! ### The obligations -/

open Sys2Proof Sys2Proof.Machine

/-- Settles O5: the state handed to the handler is the one after the tick and the fetch. -/
theorem stepRunsTheDecodedInstruction : Obligations.StepRunsTheDecodedInstruction :=
  ⟨fun tickEn rand s _ h => ⟨_, stepWith_of_aboutToRun h tickEn rand, changesOnly_handed s tickEn rand _,
    beginStep_dt_ticked s tickEn rand, beginStep_st_ticked s tickEn rand, rfl, by simp⟩, step_eq⟩

/-- Settles O6: the two bytes placed at `PC` make the encoded word again, which decodes to the instruction. -/
theorem placedWordRuns : Obligations.PlacedWordRuns := by
  intro s i hinv hwf hpc
  have hin := bytesOfWord_fit_at_pc hpc (encode i)
  have hword := wordAtPc_placed hinv.memory hpc (encode i)
  rw [withFetchWord_of_le hpc]
  generalize hu : s.setMem (Memory.writeBytes s.mem s.pc.toNat (bytesOfWord (encode i))) = u at hword
  have hmem : ChangesOnly [.mem] s u := hu ▸ changesOnly_setMem s _
  have hbytes : ChangesOnlyBytes s.pc.toNat 2 s u := hu ▸ changesOnlyBytes_writeBytes hinv.memory hin
  have hrun : u.AboutToRun i := ⟨hu ▸ hpc, (congrArg decodeWord hword).trans (decodeWord_encode hwf)⟩
  exact ⟨decodeTableWord_encode hwf, _, stepWith_of_aboutToRun hrun _ _, hword,
    hmem.append (changesOnly_handed u _ _ _), fun a ha => by simpa using hbytes a ha⟩

/-- Settles O9: without the tick the state before the instruction has the timers it began with, and only
`FX15` and `FX18` write one. -/
theorem noTickWithoutEnable : Obligations.NoTickWithoutEnable :=
  fun _ _ => ⟨fun _ => stepWith_next_dt, fun _ => stepWith_next_st, fun _ => stepWith_fault_timers⟩

/-- Settles O10: the fetch is refused before `IR` is written. -/
theorem fetchPastMemoryFaults : Obligations.FetchPastMemoryFaults := by
  intro tickEn rand s hpc
  obtain ⟨f, hf, hcause, hafter⟩ := fault_of_eq_raise (stepWith_of_fetchFault hpc tickEn rand)
  exact ⟨f, hf, hcause, stepWith_fault_dt hf, stepWith_fault_st hf,
    hafter ▸ changesOnly_beginStep s tickEn rand⟩

/-- Settles O11: a word without a row is refused by the decoder, after the fetch has put it into `IR`. -/
theorem unknownWordFaults : Obligations.UnknownWordFaults := by
  intro tickEn rand s w hpc hw hno
  subst hw
  obtain ⟨f, hf, hcause, hafter⟩ :=
    fault_of_eq_raise (stepWith_of_unknown hpc (decodeWord_of_no_row hno) tickEn rand)
  exact ⟨f, hf, hcause, hafter ▸ rfl, stepWith_fault_dt hf, stepWith_fault_st hf, stepWith_fault_frame hf⟩

/-- Settles O12: a faulting `Step` leaves the state the tick has made, and the fetch if it succeeded. -/
theorem faultingStepIsPrecise : Obligations.FaultingStepIsPrecise :=
  fun _ _ _ _ h => ⟨stepWith_fault_frame h, stepWith_fault_dt h, stepWith_fault_st h,
    fun hpc => (stepWith_fault_ir h).trans (if_pos hpc),
    fun hpc => (stepWith_fault_ir h).trans (if_neg (Nat.not_lt.2 hpc))⟩

/-- Settles O13: the fault of a `Step` is a function of what a faulting `Step` leaves alone. -/
theorem faultRepeats : Obligations.FaultRepeats := by
  intro tickEn tickEn' rand rand' s f h
  have hagain : f.after.stepFault = some f.cause :=
    (stepFault_congr (stepWith_fault_frame h)).trans (stepFault_of_stepWith_fault h)
  exact stepWith_fault_of_stepFault hagain tickEn' rand'

/-- Settles O14: every handler goes on or raises its own fault, and its fault condition says which. -/
theorem instructionCompletesOrFaults : Obligations.InstructionCompletesOrFaults :=
  fun _ _ => ⟨exec_goesOn, fun _ hc => fault_of_eq_raise (exec_eq_raise hc)⟩

/-- Settles O15: the fetch and the decoder raise, and no handler refuses. -/
theorem stepNeverRefused : Obligations.StepNeverRefused := by
  intro tickEn rand s
  rcases stepWith_cases s tickEn rand with ⟨-, hs⟩ | ⟨-, -, hs⟩ | ⟨-, i, -, hs⟩
  · exact .inr ((fault_of_eq_raise hs).imp fun _ h => h.1)
  · exact .inr ((fault_of_eq_raise hs).imp fun _ h => h.1)
  · exact hs ▸ exec_next_or_fault i _

/-- Settles O17: the frame is part of what every handler is shown to do. -/
theorem onlyItsOwnPiecesChange : Obligations.OnlyItsOwnPiecesChange :=
  fun _ _ _ h => (runsAsTabled_of_exec_next h).frame

/-- Settles O18: by the shape of the register writers; the others leave all registers. -/
theorem onlyItsOwnRegistersChange : Obligations.OnlyItsOwnRegistersChange :=
  fun _ _ _ h _ => exec_next_regs h

end

section
/-! PROOFS of the statements on the invariant (10_state.md section 6): who can break it, that no move does, and
every reachable state. -/

namespace Sys2Proof.Machine

variable {i : Instr} {s t : State} {tickEn : Bool} {rand : Byte}

/-! ### What the invariant reads -/

theorem State.Inv.congr (h : s.Inv) (hmem : t.mem = s.mem) (hsp : t.sp = s.sp)
    (hstack : ∀ k : Fin 16, t.stack[k] = s.stack[k]) : t.Inv where
  memory := hmem ▸ h.memory
  calls k hk := by
    rw [hstack k]
    exact h.calls k (hsp ▸ hk)

/-- The pieces the invariant reads. -/
def invariantParts : List Part := [.mem, .sp, .stack]

/-- A change of other pieces keeps the invariant. -/
theorem State.Inv.of_frame {ps : List Part} (h : s.Inv) (hframe : ChangesOnly ps s t)
    (hps : ∀ p ∈ invariantParts, p ∉ ps) : t.Inv :=
  h.congr (hframe .mem (hps _ (by decide))).1 (hframe .sp (hps _ (by decide)))
    (hframe .stack (hps _ (by decide)))

/-! ### The four instructions that write such a piece -/

/-- A return only makes the live part of the stack shorter (rule R90). -/
theorem inv_of_exec00EE_next (h : s.Inv) (hexec : exec00EE s = .next t) : t.Inv := by
  by_cases hpos : 0 < s.sp.val
  · cases (exec00EE_of_pos hpos).symm.trans hexec
    exact ⟨h.memory, fun k hk => h.calls k (Nat.lt_of_lt_of_le hk (Nat.sub_le _ 1))⟩
  · cases (exec00EE_of_empty (by omega)).symm.trans hexec

/-- A call pushes its own address, from which it was fetched (rule R92). -/
theorem inv_of_exec2NNN_next {nnn : Addr12} (h : s.Inv) (hpc : s.pc.toNat ≤ 0xFFE)
    (hexec : exec2NNN nnn s = .next t) : t.Inv := by
  by_cases hlt : s.sp.val < 16
  · cases (exec2NNN_of_lt hlt nnn).symm.trans hexec
    refine ⟨h.memory, fun k hk => ?_⟩
    have hk : k.val < s.sp.val + 1 := hk
    change ((s.setStack ⟨s.sp.val, hlt⟩ s.pc).stack[k]).toNat ≤ 0xFFE
    rw [stack_setStack]
    split
    next => exact hpc
    next hne =>
      have hne : k.val ≠ s.sp.val := fun e => hne (Fin.ext e)
      exact h.calls k (by omega)
  · cases (exec2NNN_of_full (by omega) nnn).symm.trans hexec

theorem inv_setMem_writeBytes {a : Nat} {bs : List Byte} (h : s.Inv)
    (hin : a + bs.length ≤ Config.memSize) : (s.setMem (Memory.writeBytes s.mem a bs)).Inv :=
  ⟨Memory.writeBytes_wf h.memory fun _ => hin, h.calls⟩

/-- A store at `I` that went on stayed inside the memory (rules R47, R136). -/
theorem inv_of_storeAtI_next {bs : List Byte} (h : s.Inv) (hne : bs ≠ [])
    (hexec : storeAtI bs s = .next t) : t.Inv := by
  rcases storeAtI_cases hne s with ⟨hin, hst⟩ | ⟨-, hst⟩
  · cases hst.symm.trans hexec
    exact (inv_setMem_writeBytes h hin).congr rfl rfl fun _ => rfl
  · cases hst.symm.trans hexec

/-! ### Every instruction, every `Step`, every move -/

/-- An instruction fetched from memory keeps the invariant. -/
theorem inv_of_exec_next (h : s.Inv) (hpc : s.pc.toNat ≤ 0xFFE) (hexec : exec i s = .next t) : t.Inv := by
  cases i with
  | op00EE => exact inv_of_exec00EE_next h hexec
  | op2NNN nnn => exact inv_of_exec2NNN_next h hpc hexec
  | opFX33 x => exact inv_of_storeAtI_next h (decimalDigits_ne_nil _) hexec
  | opFX55 x => exact inv_of_storeAtI_next h (regsUpTo_ne_nil s x) hexec
  | _ =>
    exact h.of_frame (runsAsTabled_of_exec_next hexec).frame (by simp [invariantParts, Instr.writes])

theorem inv_of_stepWith_next (h : s.Inv) (hstep : stepWith tickEn rand s = .next t) : t.Inv := by
  obtain ⟨i, hi, hexec⟩ := stepWith_eq_next hstep
  have hhanded : (s.handed tickEn rand s.wordAtPc).Inv :=
    h.of_frame (changesOnly_handed s tickEn rand _) (by decide)
  exact inv_of_exec_next hhanded (by simpa using hi.inMemory) hexec

theorem inv_of_stepWith_fault {f : Fault} (h : s.Inv) (hstep : stepWith tickEn rand s = .fault f) :
    f.after.Inv :=
  h.of_frame (stepWith_fault_frame hstep) (by decide)

theorem inv_reset : State.reset.Inv := ⟨rfl, fun _ hk => absurd hk (Nat.not_lt_zero _)⟩

/-- An image that is loaded ends inside the memory (rule R194). -/
theorem inv_hostLoadROM (h : s.Inv) (bytes : List Byte) : (hostLoadROM s bytes).1.Inv := by
  rcases Nat.lt_or_ge 3584 bytes.length with hlarge | hfits
  · rw [hostLoadROM_of_tooLarge hlarge]
    exact h
  · rw [hostLoadROM_of_fits hfits]
    exact inv_setMem_writeBytes h (Nat.add_le_add_left hfits 0x200)

theorem inv_applyMove (s : State) (m : HostMove) (h : s.Inv) : (applyMove s m).Inv := by
  cases m with
  | step tickEn rand =>
    change (stateAndResult s (stepWith tickEn rand s)).1.Inv
    match hstep : stepWith tickEn rand s with
    | .next t => exact inv_of_stepWith_next h hstep
    | .fault f => exact inv_of_stepWith_fault h hstep
    | .refused r => exact h
  | reset => exact inv_reset.congr rfl rfl fun _ => rfl
  | loadROM bytes => exact inv_hostLoadROM h bytes
  | setKey k b => exact h.of_frame (changesOnly_setKey s k b) (by decide)
  | ackDraw => exact h.of_frame (changesOnly_setNeedDraw s false) (by decide)
  | clearWait => exact h.of_frame (changesOnly_setWaitInput s false) (by decide)

end Sys2Proof.Machine

/-! ### The obligations -/

open Sys2Proof Sys2Proof.Machine

/-- Settles O20: of what the invariant reads only a call, a return and two stores write anything. -/
theorem stepKeepsInvariant : Obligations.StepKeepsInvariant :=
  fun _ h => ⟨fun _ => inv_of_stepWith_next h, fun _ => inv_of_stepWith_fault h⟩

/-- Settles O59: a `Step` keeps the invariant, `LoadROM` stores inside the memory, and the other moves of the
host write nothing the invariant reads, or all of it. -/
theorem everyMoveKeepsInvariant : Obligations.EveryMoveKeepsInvariant := inv_applyMove

/-- Settles O19: the memory list is empty and so is the stack. -/
theorem resetMeetsInvariant : Obligations.ResetMeetsInvariant := inv_reset

/-- Settles O21: the invariant holds at reset and every move keeps it. -/
theorem reachableStatesMeetInvariant : Obligations.ReachableStatesMeetInvariant := by
  rintro s ⟨moves, rfl⟩
  have hinv := applyMoves_invariant inv_applyMove State.reset inv_reset moves
  exact ⟨Fin.is_le _, hinv.memory, hinv.calls⟩

end

section
/-! PROOFS of the statement on what a program cannot see (10_state.md section 5): every update by a value that is
the same in two states keeps them the same to a program, and no handler computes a value from anything else. -/

namespace Sys2Proof.Machine

variable {s t : State}

/-! ### Updates by the same value -/

namespace SameToProgram

theorem writeV (h : SameToProgram s t) (x : RegIdx) {a b : Byte} (hb : b = a) :
    SameToProgram (s.writeV x a) (t.writeV x b) :=
  { h with regs := fun r => by rw [readV_writeV, readV_writeV, hb, h.regs] }

theorem setI (h : SameToProgram s t) {a b : Word} (hb : b = a) : SameToProgram (s.setI a) (t.setI b) :=
  { h with i := hb }

theorem setPc (h : SameToProgram s t) {a b : Word} (hb : b = a) : SameToProgram (s.setPc a) (t.setPc b) :=
  { h with pc := hb }

theorem advance (h : SameToProgram s t) : SameToProgram s.advance t.advance :=
  h.setPc (by rw [h.pc])

theorem skipIf (h : SameToProgram s t) {c d : Bool} (hd : d = c) :
    SameToProgram (s.skipIf c) (t.skipIf d) :=
  h.setPc (by rw [h.pc, hd])

theorem setDt (h : SameToProgram s t) {a b : Byte} (hb : b = a) : SameToProgram (s.setDt a) (t.setDt b) :=
  { h with dt := hb }

theorem setSt (h : SameToProgram s t) {a b : Byte} (hb : b = a) : SameToProgram (s.setSt a) (t.setSt b) :=
  { h with st := hb }

theorem setMem (h : SameToProgram s t) {m m' : Cells} (hm : m' = m) :
    SameToProgram (s.setMem m) (t.setMem m') :=
  { h with mem := hm }

theorem setDisp (h : SameToProgram s t) {d d' : Display} (hd : d' = d) :
    SameToProgram (s.setDisp d) (t.setDisp d') :=
  { h with disp := hd }

theorem setEnv (h : SameToProgram s t) {e e' : Env} (he : e' = e) :
    SameToProgram (s.setEnv e) (t.setEnv e') :=
  { h with env := he }

theorem setWaitInput (h : SameToProgram s t) (b : Bool) :
    SameToProgram (s.setWaitInput b) (t.setWaitInput b) :=
  { h with }

theorem setNeedDraw (h : SameToProgram s t) (b : Bool) :
    SameToProgram (s.setNeedDraw b) (t.setNeedDraw b) :=
  { h with }

theorem setIr (h : SameToProgram s t) (w : Word) : SameToProgram (s.setIr w) (t.setIr w) :=
  { h with }

theorem loadRegs (h : SameToProgram s t) (bs : List Byte) (k : Nat) :
    SameToProgram (s.loadRegs k bs) (t.loadRegs k bs) := by
  induction bs generalizing s t k with
  | nil => exact h
  | cons b bs ih => exact ih (h.writeV _ rfl) _

/-- A shorter stack has no live entry that was stale. -/
theorem setSp_of_le (h : SameToProgram s t) {n n' : Fin 17} (hn : n' = n) (hle : n ≤ s.sp) :
    SameToProgram (s.setSp n) (t.setSp n') :=
  { h with sp := hn, live := fun k hk => h.live k (Nat.lt_of_lt_of_le hk hle) }

/-- A push makes the one stale entry live that it has just written. -/
theorem push (h : SameToProgram s t) {k k' : Fin 16} {n n' : Fin 17} (hk : k.val = s.sp.val) (hk' : k' = k)
    (hn : n.val = s.sp.val + 1) (hn' : n' = n) {w w' : Word} (hw : w' = w) :
    SameToProgram ((s.setStack k w).setSp n) ((t.setStack k' w').setSp n') := by
  subst hk' hn' hw
  refine { h with sp := rfl, live := fun j hj => ?_ }
  have hj : j.val < n'.val := hj
  change (t.setStack k' w').stack[j] = (s.setStack k' w').stack[j]
  rw [stack_setStack, stack_setStack]
  split
  next => rfl
  next hne =>
    have hne : j.val ≠ k'.val := fun e => hne (Fin.ext e)
    exact h.live j (by omega)

/-! ### What handlers read beside the registers, `I` and `PC` -/

theorem loadBytes_eq (h : SameToProgram s t) (len : Nat) :
    t.loadBytes (t.effAddr 0) len = s.loadBytes (s.effAddr 0) len := by
  rw [State.loadBytes, State.loadBytes, State.effAddr, State.effAddr, h.i, h.mem]

theorem keyDown_eq (h : SameToProgram s t) : t.keyDown = s.keyDown := by
  funext k
  simp only [State.keyDown, h.keys]

theorem lowestKey_eq (h : SameToProgram s t) : t.lowestKey = s.lowestKey := by
  rw [State.lowestKey, State.lowestKey, h.keyDown_eq]

theorem regsUpTo_eq (h : SameToProgram s t) (x : RegIdx) : t.regsUpTo x = s.regsUpTo x := by
  rw [State.regsUpTo, State.regsUpTo, v_ext h.regs]

/-- The entry a return pops is a live one. -/
theorem top_eq (h : SameToProgram s t) (hs : 0 < s.sp.val) (ht : 0 < t.sp.val) :
    t.stack[t.sp.val - 1]'(by omega) = s.stack[s.sp.val - 1]'(by omega) := by
  simp only [h.sp]
  exact h.live ⟨s.sp.val - 1, by omega⟩ (Nat.sub_lt hs Nat.one_pos)

/-! ### Outcomes -/

theorem raise (h : SameToProgram s t) (c : FaultCause) : SameOutcome (raise c s) (raise c t) := by
  cases c <;> exact ⟨rfl, h⟩

theorem setRegister (h : SameToProgram s t) (x : RegIdx) {a b : Byte} (hb : b = a) :
    SameOutcome (setRegister s x a) (setRegister t x b) :=
  (h.writeV x hb).advance

theorem storeAtI (h : SameToProgram s t) {bs bs' : List Byte} (hne : bs ≠ []) (hbs : bs' = bs) :
    SameOutcome (storeAtI bs s) (storeAtI bs' t) := by
  subst hbs
  rcases storeAtI_cases hne s with ⟨hin, hs⟩ | ⟨hout, hs⟩
  · rw [hs, storeAtI_of_inRange (h.i.symm ▸ hin)]
    exact (h.setMem (by rw [h.mem, h.i])).advance
  · rw [hs, storeAtI_of_outOfRange hne (h.i.symm ▸ hout)]
    exact h.raise _

theorem exec00EE (h : SameToProgram s t) : SameOutcome (exec00EE s) (exec00EE t) := by
  by_cases hs : 0 < s.sp.val
  · have ht : 0 < t.sp.val := h.sp.symm ▸ hs
    rw [exec00EE_of_pos hs, exec00EE_of_pos ht]
    exact (h.setSp_of_le (Fin.ext (by simp only [h.sp])) (Nat.sub_le _ 1)).setPc (by rw [h.top_eq hs ht])
  · have hs : s.sp.val = 0 := by omega
    rw [exec00EE_of_empty hs, exec00EE_of_empty (h.sp.symm ▸ hs)]
    exact h.raise _

theorem exec2NNN (h : SameToProgram s t) (nnn : Addr12) : SameOutcome (exec2NNN nnn s) (exec2NNN nnn t) := by
  by_cases hs : s.sp.val < 16
  · rw [exec2NNN_of_lt hs, exec2NNN_of_lt (h.sp.symm ▸ hs)]
    exact (h.push rfl (Fin.ext (by simp only [h.sp])) rfl (Fin.ext (by simp only [h.sp])) h.pc).setPc rfl
  · have hs : s.sp.val = 16 := by omega
    rw [exec2NNN_of_full hs, exec2NNN_of_full (h.sp.symm ▸ hs)]
    exact h.raise _

theorem execDXYN (h : SameToProgram s t) (x y : RegIdx) (n : Nat) :
    SameOutcome (execDXYN x y n s) (execDXYN x y n t) := by
  rw [Machine.execDXYN, Machine.execDXYN, h.loadBytes_eq, h.regs x, h.regs y, h.disp]
  cases s.loadBytes (s.effAddr 0) n with
  | none => exact h.raise _
  | some rows => exact (((h.writeV vF rfl).setDisp rfl).setNeedDraw true).advance

theorem execFX65 (h : SameToProgram s t) (x : RegIdx) : SameOutcome (execFX65 x s) (execFX65 x t) := by
  rw [Machine.execFX65, Machine.execFX65, h.loadBytes_eq]
  cases s.loadBytes (s.effAddr 0) (x.val + 1) with
  | none => exact h.raise _
  | some bs => exact (h.loadRegs bs 0).advance

theorem execEX9E (h : SameToProgram s t) (x : RegIdx) : SameOutcome (execEX9E x s) (execEX9E x t) := by
  rw [Machine.execEX9E, Machine.execEX9E, h.regs x, h.keyDown_eq]
  cases keyIndex (s.readV x) with
  | none => exact h.raise _
  | some k => exact h.skipIf rfl

theorem execEXA1 (h : SameToProgram s t) (x : RegIdx) : SameOutcome (execEXA1 x s) (execEXA1 x t) := by
  rw [Machine.execEXA1, Machine.execEXA1, h.regs x, h.keyDown_eq]
  cases keyIndex (s.readV x) with
  | none => exact h.raise _
  | some k => exact h.skipIf rfl

theorem execFX0A (h : SameToProgram s t) (x : RegIdx) : SameOutcome (execFX0A x s) (execFX0A x t) := by
  match hk : s.lowestKey with
  | none =>
    rw [execFX0A_of_none hk, execFX0A_of_none (h.lowestKey_eq.trans hk)]
    exact h.setWaitInput true
  | some k =>
    rw [execFX0A_of_some hk, execFX0A_of_some (h.lowestKey_eq.trans hk)]
    exact (((h.setWaitInput true).writeV x rfl).setWaitInput false).advance

/-- No handler tells the two states apart. -/
theorem exec (h : SameToProgram s t) (i : Instr) : SameOutcome (exec i s) (exec i t) := by
  cases i with
  | op00E0 => exact ((h.setDisp rfl).setNeedDraw true).advance
  | op00EE => exact h.exec00EE
  | op1NNN nnn => exact h.setPc rfl
  | op2NNN nnn => exact h.exec2NNN nnn
  | opBNNN nnn => exact h.setPc (by rw [h.regs])
  | op3XNN x nn | op4XNN x nn => exact h.skipIf (by rw [h.regs])
  | op5XY0 x y | op9XY0 x y => exact h.skipIf (by rw [h.regs x, h.regs y])
  | op6XNN x nn => exact h.setRegister x rfl
  | op7XNN x nn => exact h.setRegister x (by rw [h.regs])
  | op8XY0 x y => exact h.setRegister x (h.regs y)
  | op8XY1 x y | op8XY2 x y | op8XY3 x y => exact h.setRegister x (by rw [h.regs x, h.regs y])
  | op8XY4 x y | op8XY5 x y | op8XY6 x y | op8XY7 x y | op8XYE x y =>
    exact ((h.writeV vF (by simp only [h.regs])).writeV x (by simp only [readV_writeV, h.regs])).advance
  | opCXNN x nn => exact h.setRegister x (by rw [h.env])
  | opANNN nnn => exact (h.setI rfl).advance
  | opFX1E x => exact (h.setI (by rw [h.i, h.regs])).advance
  | opFX29 x => exact (h.setI (by rw [h.regs])).advance
  | opFX33 x => exact h.storeAtI (decimalDigits_ne_nil _) (by rw [h.regs])
  | opFX55 x => exact h.storeAtI (regsUpTo_ne_nil s x) (h.regsUpTo_eq x)
  | opFX65 x => exact h.execFX65 x
  | opDXYN x y n => exact h.execDXYN x y n
  | opEX9E x => exact h.execEX9E x
  | opEXA1 x => exact h.execEXA1 x
  | opFX0A x => exact h.execFX0A x
  | opFX07 x => exact h.setRegister x h.dt
  | opFX15 x => exact (h.setDt (h.regs x)).advance
  | opFX18 x => exact (h.setSt (h.regs x)).advance

/-! ### The `Step` -/

theorem beginStep (h : SameToProgram s t) (tickEn : Bool) (rand : Byte) :
    SameToProgram (s.beginStep tickEn rand) (t.beginStep tickEn rand) := by
  have hlatch : SameToProgram (s.latchInputs tickEn rand) (t.latchInputs tickEn rand) :=
    h.setEnv (by rw [h.env])
  cases tickEn with
  | false => exact hlatch
  | true => exact (hlatch.setDt (congrArg tickTimer h.dt)).setSt (congrArg tickTimer h.st)

theorem decodeAndExec (h : SameToProgram s t) (w : Word) :
    SameOutcome (decodeAndExec w s) (decodeAndExec w t) := by
  rw [Machine.decodeAndExec, Machine.decodeAndExec]
  cases decodeWord w with
  | error e => exact h.raise _
  | ok i => exact h.exec i

theorem stepWith (h : SameToProgram s t) (tickEn : Bool) (rand : Byte) :
    SameOutcome (stepWith tickEn rand s) (stepWith tickEn rand t) := by
  have hbegin := h.beginStep tickEn rand
  rw [Machine.stepWith, Machine.stepWith, fetchWord_congr hbegin.pc hbegin.mem]
  cases (s.beginStep tickEn rand).fetchWord with
  | none => exact hbegin.raise _
  | some w => exact (hbegin.setIr w).decodeAndExec w

end SameToProgram

end Sys2Proof.Machine

/-! ### The obligations -/

open Sys2Proof Sys2Proof.Machine

/-- Settles O51: the inputs are the same in both states, and the phases of a `Step` keep them the same to a
program one after the other. -/
theorem outputsNeverInfluenceExecution : Obligations.OutputsNeverInfluenceExecution := by
  intro s t h
  rw [step_eq, step_eq, h.env]
  exact h.stepWith _ _

end

section
/-! PROOFS of the statements on the flag writers (42_load_alu.md section 4) and on the random byte (section 5). -/

namespace Sys2Proof.Machine

/-! ### The two writes, as numbers (rule R123) -/

/-- What a flag writer leaves, `F` and `R` the flag and the result of its operands as numbers: the result is
computed with the new flag in place, which shows where an operand is `VF` itself. -/
structure FlagThenResult (F R : Nat → Nat → Nat) (x y : RegIdx) (s t : State) : Prop where
  apart : x ≠ vF → y ≠ vF → (t.readV x).toNat = R (s.readV x).toNat (s.readV y).toNat ∧
    (t.readV vF).toNat = F (s.readV x).toNat (s.readV y).toNat
  xIsFlag : x = vF → y ≠ vF →
    (t.readV vF).toNat = R (F (s.readV x).toNat (s.readV y).toNat) (s.readV y).toNat
  yIsFlag : x ≠ vF → y = vF → (t.readV vF).toNat = F (s.readV x).toNat (s.readV y).toNat ∧
    (t.readV x).toNat = R (s.readV x).toNat (F (s.readV x).toNat (s.readV y).toNat)
  bothFlag : x = vF → y = vF → (t.readV vF).toNat =
    R (F (s.readV x).toNat (s.readV x).toNat) (F (s.readV x).toNat (s.readV x).toNat)
  frame : ChangesOnlyRegs [x, vF] s t ∧ PcAdvances 2 s t ∧ ChangesOnly [.v, .pc] s t

theorem flagThenResult_operands {flag result : Byte → Byte → Byte} {F R : Nat → Nat → Nat}
    (hF : ∀ a b, (flag a b).toNat = F a.toNat b.toNat)
    (hR : ∀ a b, (result a b).toNat = R a.toNat b.toNat) (x y : RegIdx) (s : State) :
    ∃ t, flagThenResult s x (fun u => flag (u.readV x) (u.readV y))
      (fun u => result (u.readV x) (u.readV y)) = .next t ∧ FlagThenResult F R x y s t := by
  obtain ⟨t, ht, hx, hvF, hframe⟩ := flagThenResult_spec s x
    (fun u => flag (u.readV x) (u.readV y)) (fun u => result (u.readV x) (u.readV y))
  simp only [readV_writeV] at hx
  refine ⟨t, ht, fun h h' => ?_, fun h h' => ?_, fun h h' => ?_, fun h h' => ?_, hframe⟩
  · rw [hx, hvF h, if_neg h, if_neg h', hR, hF]
    exact ⟨rfl, rfl⟩
  · rw [← h, hx, if_pos h, if_neg h', hR, hF]
  · rw [hx, hvF h, if_neg h, if_pos h', hR, hF]
    exact ⟨rfl, rfl⟩
  · subst h h'
    rw [hx, if_pos rfl, hR, hF]

theorem sub_toNat (a b : Byte) : (a - b).toNat = (a.toNat + 256 - b.toNat) % 256 := by
  have := b.isLt
  rw [BitVec.toNat_sub]
  omega

theorem shiftRight_one_toNat (a : Byte) : (a >>> 1).toNat = a.toNat / 2 := by
  simp [Nat.shiftRight_eq_div_pow]

theorem shiftLeft_one_toNat (a : Byte) : (a <<< 1).toNat = a.toNat * 2 % 256 := by
  simp [Nat.shiftLeft_eq]

end Sys2Proof.Machine

/-! ### The obligations -/

open Sys2Proof Sys2Proof.Machine

/-- Settles O25: the carry and the sum as numbers; with both operands `VF` the sum is twice the carry. -/
theorem addSetsCarry : Obligations.AddSetsCarry := by
  rintro x y s a b c rfl rfl rfl
  obtain ⟨t, ht, h⟩ := flagThenResult_operands (F := fun a b => if a + b > 255 then 1 else 0)
    (R := fun a b => (a + b) % 256) carryFlag_toNat BitVec.toNat_add x y s
  refine ⟨t, ht, h.apart, h.xIsFlag, h.yIsFlag, fun hx hy => ?_, h.frame⟩
  rw [h.bothFlag hx hy]
  split <;> split <;> omega

/-- Settles O26: the borrow and the difference as numbers; with both operands `VF` the difference is 0. -/
theorem subtractSetsNoBorrow : Obligations.SubtractSetsNoBorrow := by
  rintro x y s a b f rfl rfl rfl
  obtain ⟨t, ht, h⟩ := flagThenResult_operands (F := fun a b => if b > a then 0 else 1)
    (R := fun a b => (a + 256 - b) % 256) noBorrowFlag_toNat sub_toNat x y s
  refine ⟨t, ht, h.apart, h.xIsFlag, h.yIsFlag, fun hx hy => ?_, h.frame⟩
  rw [h.bothFlag hx hy, Nat.add_sub_cancel_left]

/-- Settles O27: as O26, with the operands of the flag and of the difference exchanged. -/
theorem reverseSubtractSetsNoBorrow : Obligations.ReverseSubtractSetsNoBorrow := by
  rintro x y s a b f rfl rfl rfl
  obtain ⟨t, ht, h⟩ := flagThenResult_operands (F := fun a b => if a > b then 0 else 1)
    (R := fun a b => (b + 256 - a) % 256) (fun a b => noBorrowFlag_toNat b a) (fun a b => sub_toNat b a) x y s
  refine ⟨t, ht, h.apart, h.xIsFlag, h.yIsFlag, fun hx hy => ?_, h.frame⟩
  rw [h.bothFlag hx hy, Nat.add_sub_cancel_left]

/-- Settles O28: a shift is a flag writer with `VX` for both operands; `y` does not occur in it. -/
theorem shiftsSetDroppedBit : Obligations.ShiftsSetDroppedBit := by
  rintro x y s a rfl
  have hlt := (s.readV x).isLt
  constructor
  · obtain ⟨t, ht, h⟩ := flagThenResult_operands (F := fun a _ => a % 2) (R := fun a _ => a / 2)
      (fun a _ => lowBitFlag_toNat a) (fun a _ => shiftRight_one_toNat a) x x s
    refine ⟨t, ht, fun hx => h.apart hx hx, fun hx => ?_, h.frame⟩
    rw [h.bothFlag hx hx]
    omega
  · obtain ⟨t, ht, h⟩ := flagThenResult_operands (F := fun a _ => a / 128) (R := fun a _ => a * 2 % 256)
      (fun a _ => highBitFlag_toNat a) (fun a _ => shiftLeft_one_toNat a) x x s
    refine ⟨t, ht, fun hx => h.apart hx hx, fun hx => ?_, h.frame⟩
    rw [h.bothFlag hx hx]
    split <;> omega

/-- Settles O24: one register write of the masked latch, which a `Step` fills with its own input. -/
theorem randomByteIsMasked : Obligations.RandomByteIsMasked := by
  intro x nn s
  refine ⟨exec_setRegister rfl fun t ht k _ => by rw [ht, BitVec.getLsbD_and], fun tickEn rand h => ?_⟩
  refine ⟨_, stepWith_of_aboutToRun h tickEn rand, fun k _ => ?_⟩
  rw [advance_readV, readV_writeV_self, setIr_env, beginStep_env, BitVec.getLsbD_and]

end

section
/-! PROOFS of the statements on the call and the return (41_control_flow.md section 1). -/

namespace Sys2Proof.Machine

variable {s : State} {k : Fin 16}

/-- A call with an entry free pushes its own address there and jumps (rule R92). -/
theorem exec2NNN_pushes (nnn : Addr12) (hk : k.val = s.sp.val) :
    ∃ t, exec (.op2NNN nnn) s = .next t ∧ t.stack[k] = s.pc ∧
      (∀ j : Fin 16, j ≠ k → t.stack[j] = s.stack[j]) ∧ t.sp.val = s.sp.val + 1 ∧
      t.pc.toNat = nnn.toNat ∧ ChangesOnly [.stack, .sp, .pc] s t := by
  have hlt : s.sp.val < 16 := hk ▸ k.isLt
  obtain rfl : k = ⟨s.sp.val, hlt⟩ := Fin.ext hk
  exact ⟨_, exec2NNN_of_lt hlt nnn, (stack_setStack s _ _ _).trans (if_pos rfl),
    fun j hj => (stack_setStack s _ _ j).trans (if_neg hj), rfl, absolute_toNat nnn,
    ((changesOnly_setStack s _ _).append (changesOnly_setSp _ _)).append (changesOnly_setPc _ _)⟩

/-- A return with an entry live pops the last and resumes after it (rule R90). -/
theorem exec00EE_pops (hk : k.val + 1 = s.sp.val) :
    ∃ t, exec .op00EE s = .next t ∧ t.pc.toNat = (s.stack[k].toNat + 2) % 65536 ∧
      t.sp.val = k.val ∧ ChangesOnly [.sp, .pc] s t := by
  have hpred : s.sp.val - 1 = k.val := by omega
  refine ⟨_, exec00EE_of_pos (by omega), ?_, hpred,
    (changesOnly_setSp s _).append (changesOnly_setPc _ _)⟩
  simp only [setPc_pc, BitVec.toNat_add, hpred]
  rfl

end Sys2Proof.Machine

/-! ### The obligations -/

open Sys2Proof Sys2Proof.Machine

/-- Settles O31: the push answers below `SP` 16 and not at 16. -/
theorem callPushesItsOwnAddress : Obligations.CallPushesItsOwnAddress :=
  fun nnn _ => ⟨fun _ hk => exec2NNN_pushes nnn hk,
    fun hfull => fault_of_eq_raise (exec2NNN_of_full hfull nnn)⟩

/-- Settles O32: the pop answers above `SP` 0 and not at 0. -/
theorem returnResumesAfterCall : Obligations.ReturnResumesAfterCall :=
  fun _ => ⟨fun _ hk => exec00EE_pops hk, fun hempty => fault_of_eq_raise (exec00EE_of_empty hempty)⟩

/-- Settles O33: the entry the return pops is the one the call has pushed. -/
theorem callThenReturn : Obligations.CallThenReturn := by
  intro nnn s t u hcall husp hlive
  have hne : s.sp.val ≠ 16 := by simpa [Instr.faultIn] using (runsAsTabled_of_exec_next hcall).faultless
  obtain ⟨k, hk⟩ : ∃ k : Fin 16, k.val = s.sp.val := ⟨⟨s.sp.val, by omega⟩, rfl⟩
  obtain ⟨t', ht', hpushed, -, hsp, -⟩ := exec2NNN_pushes nnn hk
  cases hcall.symm.trans ht'
  obtain ⟨w, hw, hpc, hspw, hframe⟩ := exec00EE_pops (s := u) (k := k) (by rw [husp, hsp, hk])
  refine ⟨w, hw, ?_, Fin.ext (hspw.trans hk), hframe⟩
  rw [hpc, hlive k (by omega), hpushed]

end

section
/-! PROOFS of the statements on memory transfer (43_index_memory.md section 2) and on `FX29`. -/

namespace Sys2Proof.Machine

variable {i : Instr} {s t : State} {x : RegIdx} {bs : List Byte}

/-- A store at `I` whose last byte is inside the memory (rules R47, R133, R134, R136). -/
theorem exec_storeAtI (hexec : exec i s = storeAtI bs s) (hwf : Memory.wf s.mem = true)
    (hin : s.i.toNat + bs.length ≤ 0x1000) :
    ∃ t, exec i s = .next t ∧ (∀ k (hk : k < bs.length), t.byteAt (s.effAddr k) = bs[k]) ∧
      ChangesOnlyBytes (s.effAddr 0) bs.length s t ∧ PcAdvances 2 s t ∧ ChangesOnly [.mem, .pc] s t := by
  refine ⟨_, hexec.trans (storeAtI_of_inRange hin), fun k hk => ?_, fun a ha => ?_,
    pcAdvances_advance _, (changesOnly_setMem s _).append (changesOnly_advance _)⟩
  · have hinside : s.i.toNat ≤ s.i.toNat + k ∧ s.i.toNat + k < s.i.toNat + bs.length := by omega
    simp only [State.effAddr, byteAt_storedAtI hwf hin, dif_pos hinside, Nat.add_sub_cancel_left]
  · exact (byteAt_storedAtI hwf hin a).trans (dif_neg ha)

/-- `FX55` with `I + x` inside the memory (rule R134). -/
theorem execFX55_stores (hwf : Memory.wf s.mem = true) (hin : s.i.toNat + x.val ≤ 0xFFF) :
    ∃ t, exec (.opFX55 x) s = .next t ∧
      (∀ r : RegIdx, r.val ≤ x.val → t.byteAt (s.effAddr r.val) = s.readV r) ∧
      ChangesOnlyBytes (s.effAddr 0) (x.val + 1) s t ∧ PcAdvances 2 s t ∧ ChangesOnly [.mem, .pc] s t := by
  have hlen := length_regsUpTo s x
  obtain ⟨t, ht, hbytes, hframe⟩ := exec_storeAtI (i := .opFX55 x) rfl hwf (by omega)
  refine ⟨t, ht, fun r hr => ?_, hlen ▸ hframe⟩
  rw [hbytes r.val (by omega)]
  exact getElem_regsUpTo s x r.val (by omega)

theorem execFX55_next_inRange (h : exec (.opFX55 x) s = .next t) : s.i.toNat + x.val ≤ 0xFFF := by
  simpa [Instr.faultIn] using (runsAsTabled_of_exec_next h).faultless

/-- `FX65` with `I + x` inside the memory (rule R135). -/
theorem execFX65_loads (hin : s.i.toNat + x.val ≤ 0xFFF) :
    ∃ t, exec (.opFX65 x) s = .next t ∧
      (∀ r : RegIdx, r.val ≤ x.val → t.readV r = s.byteAt (s.effAddr r.val)) ∧
      (∀ r : RegIdx, x.val < r.val → t.readV r = s.readV r) ∧ PcAdvances 2 s t ∧
      ChangesOnly [.v, .pc] s t := by
  have hframe := changesOnly_loadRegs s 0 (Memory.readBytes s.mem s.i.toNat (x.val + 1))
  have hpc : State.pc _ = s.pc := hframe .pc (by decide)
  refine ⟨_, execFX65_of_inRange hin, fun r hr => ?_, fun r hr => ?_, ?_,
    hframe.append (changesOnly_advance _)⟩
  · exact (readV_loadedFromI s x r).trans (if_pos hr)
  · exact (readV_loadedFromI s x r).trans (if_neg (Nat.not_le.2 hr))
  · rw [PcAdvances, ← hpc]
    exact pcAdvances_advance _

/-- `FX55` in a `Step` stores the registers as they are before it: no phase before the handler writes one. -/
theorem stepWith_FX55_stores {tickEn : Bool} {rand : Byte} (hwf : Memory.wf s.mem = true)
    (h : s.AboutToRun (.opFX55 x)) (hstep : stepWith tickEn rand s = .next t) :
    s.i.toNat + x.val ≤ 0xFFF ∧ (∀ r : RegIdx, r.val ≤ x.val → t.byteAt (s.effAddr r.val) = s.readV r) ∧
      PcAdvances 2 s t := by
  have hexec := (stepWith_of_aboutToRun h tickEn rand).symm.trans hstep
  have hin := execFX55_next_inRange hexec
  obtain ⟨t', ht', hbytes, -, hpc, -⟩ := execFX55_stores (by simpa using hwf) hin
  cases hexec.symm.trans ht'
  simp only [State.effAddr, PcAdvances, setIr_i, setIr_pc, setIr_readV, beginStep_i, beginStep_pc,
    beginStep_readV] at hin hbytes hpc ⊢
  exact ⟨hin, hbytes, hpc⟩

theorem decimalDigits_toNat (b : Byte) :
    ((decimalDigits b)[0]'(by simp)).toNat = b.toNat / 100 ∧
    ((decimalDigits b)[1]'(by simp)).toNat = b.toNat / 10 % 10 ∧
    ((decimalDigits b)[2]'(by simp)).toNat = b.toNat % 10 := by
  have hb := b.isLt
  simp only [decimalDigits, List.getElem_cons_zero, List.getElem_cons_succ, BitVec.toNat_ofNat]
  omega

end Sys2Proof.Machine

/-! ### The obligations -/

open Sys2Proof Sys2Proof.Machine

/-- Settles O35: one write of `I`. -/
theorem glyphAddressIsFiveTimes : Obligations.GlyphAddressIsFiveTimes :=
  fun x s => exec_setI rfl (glyphAddress_toNat (s.readV x))

/-- Settles O36: a store at `I` of the three digits. -/
theorem decimalDigitsStored : Obligations.DecimalDigitsStored := by
  intro x s
  refine ⟨fun hwf hin => ?_, fun hout => fault_of_eq_raise (exec_eq_raise (if_pos hout))⟩
  obtain ⟨t, ht, hbytes, hframe⟩ :=
    exec_storeAtI (i := .opFX33 x) (bs := decimalDigits (s.readV x)) rfl hwf (Nat.succ_le_succ hin)
  obtain ⟨hundreds, tens, ones⟩ := decimalDigits_toNat (s.readV x)
  exact ⟨t, ht, by rwa [hbytes 0 (by simp)], by rwa [hbytes 1 (by simp)], by rwa [hbytes 2 (by simp)],
    hframe⟩

/-- Settles O37: a store at `I` of the run of registers. -/
theorem registersStored : Obligations.RegistersStored :=
  fun _ _ => ⟨execFX55_stores, fun hout => fault_of_eq_raise (exec_eq_raise (if_pos hout))⟩

/-- Settles O38: a run of register loads from the bytes at `I`. -/
theorem registersLoaded : Obligations.RegistersLoaded :=
  fun _ _ => ⟨execFX65_loads, fun hout => fault_of_eq_raise (exec_eq_raise (if_pos hout))⟩

/-- Settles O39: the load reads the bytes the store has left, at the same addresses. -/
theorem storeThenLoadRoundTrip : Obligations.StoreThenLoadRoundTrip := by
  intro x s t u hwf hstore hmem hi
  have hin := execFX55_next_inRange hstore
  obtain ⟨t', ht', hbytes, -, -, hframe⟩ := execFX55_stores hwf hin
  cases hstore.symm.trans ht'
  have hui : u.i = s.i := hi.trans (hframe .i (by decide))
  obtain ⟨w, hw, hloaded, hkept, -⟩ := execFX65_loads (s := u) (x := x) (hui ▸ hin)
  refine ⟨w, hw, fun r hr => ?_, hkept⟩
  rw [hloaded r hr, ← hbytes r hr, State.effAddr, State.effAddr, State.byteAt, State.byteAt, hmem, hui]

/-- Settles O40: the two bytes after the store are `V0` and `V1`, and `PC` is at them. -/
theorem storedWordIsFetchedNext : Obligations.StoredWordIsFetchedNext := by
  intro tickEn tickEn' rand rand' x s t i hinv hrun hI hx hdec hstep
  obtain ⟨hin, hbytes, hpc⟩ := stepWith_FX55_stores hinv.memory hrun hstep
  have hpc' : t.pc.toNat = s.pc.toNat + 2 := hpc.trans (Nat.mod_eq_of_lt (by omega))
  have hword : t.wordAtPc = wordOfBytes (s.readV 0) (s.readV 1) := by
    rw [State.wordAtPc, hpc', ← hI]
    exact congrArg₂ wordOfBytes (hbytes 0 (Nat.zero_le _)) (hbytes 1 hx)
  have hnext : t.AboutToRun i := ⟨by omega, (congrArg decodeWord hword).trans hdec⟩
  exact ⟨_, stepWith_of_aboutToRun hnext tickEn' rand', hword, by simpa using hpc'⟩

end

section
/-! PROOFS of the statements on the draw (44_display.md section 2). -/

namespace Sys2Proof.Machine

variable {s t : State} {x y : RegIdx} {n : Nat}

/-- What a draw leaves (rules R141 to R147): the cells its sprite covers inverted, `VF` the collision, and the
frame. -/
structure Draws (x y : RegIdx) (n : Nat) (s t : State) : Prop where
  inverts : ∀ r c, SpriteCovers s x y n r c → t.disp.cell r c = !s.disp.cell r c
  keeps : ∀ r c, ¬ SpriteCovers s x y n r c → t.disp.cell r c = s.disp.cell r c
  collides : (∃ r c, SpriteCovers s x y n r c ∧ s.disp.cell r c = true) → t.readV vF = 1
  clears : (¬ ∃ r c, SpriteCovers s x y n r c ∧ s.disp.cell r c = true) → t.readV vF = 0
  regs : ChangesOnlyRegs [vF] s t
  needDraw : t.needDraw = true
  pc : PcAdvances 2 s t
  frame : ChangesOnly [.v, .disp, .needDraw, .pc] s t

/-- A draw of at most 15 rows whose access is in range. -/
theorem execDXYN_draws (hn : n < 16) (hin : n = 0 ∨ s.i.toNat + n ≤ 0x1000) (x y : RegIdx) :
    ∃ t, exec (.opDXYN x y n) s = .next t ∧ Draws x y n s t := by
  have hn32 : n ≤ 32 := by omega
  obtain ⟨hcell, hcoll⟩ := drawn_spec s x y hn32
  have hflag : ∀ b, (s.drawn x y n).collision = b →
      ((s.writeV vF (flagByte (s.drawn x y n).collision)).readV vF) = flagByte b := by
    rintro b rfl
    exact readV_writeV_self s vF _
  refine ⟨_, execDXYN_of_inRange hin x y, fun r c hcov => ?_, fun r c hbare => ?_,
    fun hlit => hflag true (hcoll.2 hlit), fun hdark => hflag false (by simpa using mt hcoll.1 hdark),
    fun r hr => readV_writeV_of_ne s (by simpa using hr) _, rfl, pcAdvances_advance _,
    (((changesOnly_writeV s _ _).append (changesOnly_setDisp _ _)).append
      (changesOnly_setNeedDraw _ _)).append (changesOnly_advance _)⟩
  · exact (hcell r c).trans (by rw [(spriteCovers_at_I s x y hn32 r c).2 hcov, Bool.xor_true])
  · have hfalse := Bool.eq_false_iff.2 (mt (spriteCovers_at_I s x y hn32 r c).1 hbare)
    exact (hcell r c).trans (by rw [hfalse, Bool.xor_false])

/-- A sprite without rows covers no cell. -/
theorem not_spriteCovers_zero (s : State) (x y : RegIdx) (r : Fin 32) (c : Fin 64) :
    ¬ SpriteCovers s x y 0 r c := by
  rintro ⟨j, -, hj, -⟩
  exact Nat.not_lt_zero j hj

/-- A draw that does not write the registers of its coordinates leaves its own sprite as it was. -/
theorem Draws.spriteCovers_iff (h : Draws x y n s t) (hx : x ≠ vF) (hy : y ≠ vF) (r : Fin 32)
    (c : Fin 64) : SpriteCovers t x y n r c ↔ SpriteCovers s x y n r c := by
  have hi : t.i = s.i := h.frame .i (by decide)
  have hmem : t.mem = s.mem ∧ _ := h.frame .mem (by decide)
  have hvx := h.regs x (by simpa using hx)
  have hvy := h.regs y (by simpa using hy)
  simp only [SpriteCovers, State.effAddr, State.byteAt, hi, hmem.1, hvx, hvy]

/-- A draw and the same again: each covered cell is inverted twice, and the second meets a lit cell where the
first met a dark one. -/
theorem Draws.twice {u : State} (h : Draws x y n s t) (h' : Draws x y n t u) (hx : x ≠ vF) (hy : y ≠ vF) :
    (∀ r c, u.disp.cell r c = s.disp.cell r c) ∧
    ((∃ r c, SpriteCovers s x y n r c ∧ s.disp.cell r c = false) → u.readV vF = 1) ∧
    ((¬ ∃ r c, SpriteCovers s x y n r c ∧ s.disp.cell r c = false) → u.readV vF = 0) := by
  have hcov := h.spriteCovers_iff hx hy
  refine ⟨fun r c => ?_, fun ⟨r, c, hsc, hdark⟩ => ?_, fun hno => h'.clears fun ⟨r, c, hsc, hlit⟩ => ?_⟩
  · by_cases hsc : SpriteCovers s x y n r c
    · rw [h'.inverts r c ((hcov r c).2 hsc), h.inverts r c hsc, Bool.not_not]
    · rw [h'.keeps r c (mt (hcov r c).1 hsc), h.keeps r c hsc]
  · exact h'.collides ⟨r, c, (hcov r c).2 hsc, by rw [h.inverts r c hsc, hdark, Bool.not_false]⟩
  · have hsc := (hcov r c).1 hsc
    rw [h.inverts r c hsc] at hlit
    exact hno ⟨r, c, hsc, by simpa using hlit⟩

/-- With no rows the grid stays as it is. -/
theorem Draws.frame_zero (h : Draws x y 0 s t) : ChangesOnly [.v, .needDraw, .pc] s t := by
  intro p hp
  by_cases hd : p = .disp
  · subst hd
    exact fun r c => h.keeps r c (not_spriteCovers_zero s x y r c)
  · exact h.frame p (by simp_all)

end Sys2Proof.Machine

/-! ### The obligations -/

open Sys2Proof Sys2Proof.Machine

/-- Settles O42: by the formula for a cell of the drawn canvas. -/
theorem drawInvertsCoveredCells : Obligations.DrawInvertsCoveredCells := by
  intro x y n s hn hin
  obtain ⟨t, ht, h⟩ := execDXYN_draws (s := s) hn (by omega) x y
  exact ⟨t, ht, fun r c => ⟨h.inverts r c, h.keeps r c⟩⟩

/-- Settles O43: by what the detector has seen when the canvas is drawn. -/
theorem drawSetsCollision : Obligations.DrawSetsCollision := by
  intro x y n s hn hin
  obtain ⟨t, ht, h⟩ := execDXYN_draws (s := s) hn (by omega) x y
  exact ⟨t, ht, h.collides, h.clears, h.regs, h.needDraw, h.pc, h.frame⟩

/-- Settles O44: the range check decides, and with no rows there is no cell to invert or to hit. -/
theorem drawFaultsOnlyPastMemory : Obligations.DrawFaultsOnlyPastMemory := by
  intro x y n s
  obtain ⟨t, ht, h⟩ := execDXYN_draws (s := s) (n := 0) (by decide) (.inl rfl) x y
  refine ⟨fun h0 hout => fault_of_eq_raise (exec_eq_raise (if_pos ⟨h0, hout⟩)),
    fun _ hin => exec_goesOn (if_neg fun hpast => Nat.not_lt.2 hin hpast.2),
    t, ht, h.clears ?_, h.needDraw, h.regs, h.pc, h.frame_zero⟩
  rintro ⟨r, c, hcov, -⟩
  exact not_spriteCovers_zero s x y r c hcov

/-- Settles O45: the first draw leaves the sprite and the coordinates of the second as they were. -/
theorem drawTwiceRestores : Obligations.DrawTwiceRestores := by
  intro x y n s t hn hx hy hfirst
  have hin := (execDXYN_eq_next hfirst).1
  obtain ⟨t', ht', h⟩ := execDXYN_draws hn hin x y
  cases hfirst.symm.trans ht'
  have hi : t.i = s.i := h.frame .i (by decide)
  obtain ⟨u, hu, h'⟩ := execDXYN_draws (s := t) hn (hi.symm ▸ hin) x y
  exact ⟨u, hu, h.twice h' hx hy⟩

end

section
/-! PROOFS of the statements on the keypad (45_keypad_timers.md sections 1 and 2). -/

namespace Sys2Proof.Machine

variable {s t u : State} {x : RegIdx}

/-! ### Any number of steps of a key wait (rules R152, R153) -/

/-- What a key wait may change while it waits. -/
def waitParts : List Part := [.dt, .st, .waitInput, .ir, .env]

/-- What `n` steps of a key wait have made of a state: `WaitInput` is 1 after the first, and each timer is down by
what `TICK_EN` says. -/
structure Waited (n : Nat) (s t : State) : Prop where
  frame : ChangesOnly waitParts s t
  waitInput : t.waitInput = (s.waitInput || decide (0 < n))
  tickEn : t.env.tickEn = s.env.tickEn
  dt : t.dt.toNat = s.dt.toNat - if s.env.tickEn then n else 0
  st : t.st.toNat = s.st.toNat - if s.env.tickEn then n else 0

theorem Waited.zero (s : State) : Waited 0 s s := by
  refine ⟨.refl _ s, by simp, rfl, ?_, ?_⟩ <;> simp

theorem Waited.trans {m n : Nat} (h : Waited m s t) (h' : Waited n t u) : Waited (n + m) s u where
  frame := h.frame.trans h'.frame
  waitInput := by
    rw [h'.waitInput, h.waitInput, Bool.or_assoc, ← Bool.decide_or]
    congr 2
    simp only [eq_iff_iff]
    omega
  tickEn := h'.tickEn.trans h.tickEn
  dt := by
    rw [h'.dt, h.dt, h.tickEn]
    split <;> omega
  st := by
    rw [h'.st, h.st, h.tickEn]
    split <;> omega

/-- One step of a key wait with no key down. -/
theorem step_waits (hrun : s.AboutToRun (.opFX0A x)) (hidle : ∀ k, s.keyDown k = false) :
    ∃ t, step s = .next t ∧ Waited 1 s t := by
  refine ⟨_, stepWith_FX0A_idle hrun hidle _ _,
    ((changesOnly_handed s _ _ _).append (changesOnly_setWaitInput _ true)).mono (by decide),
    by simp, by simp, ?_, ?_⟩ <;>
  cases s.env.tickEn <;> simp

/-- The instruction at `PC` is a matter of `PC` and memory, which a key wait leaves alone. -/
theorem Waited.aboutToRun {n : Nat} {i : Instr} (h : Waited n s t) (hrun : s.AboutToRun i) :
    t.AboutToRun i := by
  have hpc : t.pc = s.pc := h.frame .pc (by decide)
  have hmem : t.mem = s.mem ∧ _ := h.frame .mem (by decide)
  exact ⟨hpc ▸ hrun.inMemory, (congrArg decodeWord (wordAtPc_congr hpc hmem.1)).trans hrun.decodes⟩

theorem run_succ_of_next (h : step s = .next t) (n : Nat) :
    Host.Core.run Sys2Proof.core (n + 1) s = Host.Core.run Sys2Proof.core n t := by
  have hcore : Sys2Proof.core.step s = .next t := h
  simp only [Host.Core.run, hcore]

theorem run_waits (n : Nat) (hrun : s.AboutToRun (.opFX0A x)) (hidle : ∀ k, s.keyDown k = false) :
    ∃ t : State, Host.Core.run Sys2Proof.core n s = .next t ∧ Waited n s t := by
  induction n generalizing s with
  | zero => exact ⟨s, rfl, .zero s⟩
  | succ n ih =>
    obtain ⟨t, ht, hone⟩ := step_waits hrun hidle
    have hkeys : ∀ k, t.keyDown k = s.keyDown k := hone.frame .keys (by decide)
    obtain ⟨u, hu, hrest⟩ := ih (hone.aboutToRun hrun) fun k => (hkeys k).trans (hidle k)
    exact ⟨u, (run_succ_of_next ht n).trans hu, hone.trans hrest⟩

/-! ### A skip on the opposite of a condition (rule R151) -/

theorem pcAdvances_skipIf_not (s : State) (c : Bool) :
    PcAdvances (if c then 2 else 4) s (s.skipIf !c) := by
  cases c
  · exact pcAdvances_skipIf s true
  · exact pcAdvances_skipIf s false

end Sys2Proof.Machine

/-! ### The obligations -/

open Sys2Proof Sys2Proof.Machine

/-- Settles O47: the value of `VX` is the key's number up to 15, and no key's number above. -/
theorem keySkips : Obligations.KeySkips := by
  intro x s
  refine ⟨fun k hk => ?_, fun hout =>
    ⟨fault_of_eq_raise (exec_eq_raise (if_pos hout)), fault_of_eq_raise (exec_eq_raise (if_pos hout))⟩⟩
  have hlt : (s.readV x).toNat < 16 := hk ▸ k.isLt
  obtain rfl : k = ⟨(s.readV x).toNat, hlt⟩ := Fin.ext hk.symm
  exact ⟨⟨_, execEX9E_of_lt hlt, changesOnly_skipIf s _, pcAdvances_skipIf s _⟩,
    ⟨_, execEXA1_of_lt hlt, changesOnly_skipIf s _, pcAdvances_skipIf_not s _⟩⟩

/-- Settles O48: the two branches of the handler, by what the lowest pressed key is. -/
theorem waitTakesLowestKey : Obligations.WaitTakesLowestKey := by
  intro x s
  constructor
  · intro hidle
    exact ⟨_, execFX0A_of_none (lowestKey_eq_none.2 hidle) x, rfl, changesOnly_setWaitInput s true⟩
  · intro k hk hlower
    refine ⟨_, execFX0A_of_some (lowestKey_eq_some.2 ⟨hk, hlower⟩) x, ?_, rfl,
      fun r hr => readV_writeV_of_ne _ (by simpa using hr) _, pcAdvances_advance _,
      ((((changesOnly_setWaitInput s true).append (changesOnly_writeV _ _ _)).append
        (changesOnly_setWaitInput _ false)).append (changesOnly_advance _)).mono (by decide)⟩
    have hlt := k.isLt
    simp only [advance_readV, setWaitInput_readV, readV_writeV_self, BitVec.toNat_ofNat]
    omega

/-- Settles O49: one step of the wait, repeated. -/
theorem keyWaitRepeats : Obligations.KeyWaitRepeats := by
  intro x s n hrun hidle
  obtain ⟨t, ht, h⟩ := run_waits n hrun hidle
  refine ⟨t, ht, h.frame, fun hn => by simp [h.waitInput, hn], fun hen => ?_, fun hen => ?_⟩
  · simp [h.dt, h.st, hen]
  · exact ⟨BitVec.eq_of_toNat_eq (by simp [h.dt, hen]), BitVec.eq_of_toNat_eq (by simp [h.st, hen])⟩

end

section
/-! PROOFS of the statements on reset (10_state.md section 6, 70_reset_and_hazards.md), on the host's key and flag
operations and on what the host reads (60_exceptions.md sections 4 and 5). -/

namespace Sys2Proof.Machine

variable {s t : State}

/-! ### The reset state (rules R28, R190) -/

theorem reset_readV (r : RegIdx) : State.reset.readV r = 0 := by
  simp [State.readV, State.reset]

theorem reset_stack (k : Fin 16) : State.reset.stack[k] = 0 := by
  simp [State.reset]

theorem reset_keyDown (k : Fin 16) : State.reset.keyDown k = false := by
  simp [State.keyDown, State.reset]

/-- The font table ends below 0x050 (rule R193). -/
theorem resetByte_of_ge {a : Nat} (h : 0x050 ≤ a) : resetByte a = 0 :=
  List.getD_eq_default _ _ h

/-! ### A `Step` without a program (decision D4; log entry 8) -/

theorem Part.Same.symm {p : Part} (h : p.Same s t) : p.Same t s := by
  cases p <;> simp_all [Part.Same]

theorem ChangesOnly.symm {ps : List Part} (h : ChangesOnly ps s t) : ChangesOnly ps t s :=
  fun p hp => (h p hp).symm

/-- The state of the core is as at reset, whatever the inputs. -/
def AsAtReset (s : State) : Prop := ChangesOnly [.env] State.reset s

theorem asAtReset_hostReset (s : State) : AsAtReset (hostReset s) := changesOnly_setEnv State.reset s.env

/-- The word at 0x200 is 0x0000, which no row matches. -/
theorem stepFault_asAtReset (h : AsAtReset s) : s.stepFault = some .unknownOpcode :=
  (stepFault_congr (h.mono (by decide))).trans (stepFault_of_unknown (by decide) (e := .unknownOpcode 0) rfl)

/-- Where nothing is loaded every `Step` faults, and neither the tick of timers that are 0 nor the fetch of 0x0000
changes anything. -/
theorem stepWith_asAtReset (h : AsAtReset s) (tickEn : Bool) (rand : Byte) :
    ∃ f, stepWith tickEn rand s = .fault f ∧ f.cause = .unknownOpcode ∧ AsAtReset f.after := by
  obtain ⟨f, hf, hcause⟩ := stepWith_fault_of_stepFault (stepFault_asAtReset h) tickEn rand
  have hframe : ChangesOnly [.dt, .st, .ir, .env] State.reset f.after :=
    (h.mono (by decide)).trans (stepWith_fault_frame hf)
  have hdt : s.dt = 0 := h .dt (by decide)
  have hst : s.st = 0 := h .st (by decide)
  have hpc : s.pc = State.reset.pc := h .pc (by decide)
  have hmem : s.mem = State.reset.mem ∧ _ := h .mem (by decide)
  refine ⟨f, hf, hcause, fun p hp => ?_⟩
  cases p with
  | dt => exact BitVec.eq_of_toNat_eq (by rw [stepWith_fault_dt hf, hdt]; cases tickEn <;> rfl)
  | st => exact BitVec.eq_of_toNat_eq (by rw [stepWith_fault_st hf, hst]; cases tickEn <;> rfl)
  | ir =>
    have hir := stepWith_fault_ir hf
    rw [hpc, if_neg (by decide), wordAtPc_congr hpc hmem.1] at hir
    exact hir
  | env => exact absurd (by decide) hp
  | _ => exact hframe _ (by decide)

theorem applyMoves_steps_asAtReset (h : AsAtReset s) (steps : List (Bool × Byte)) :
    AsAtReset (applyMoves s (steps.map fun p => .step p.1 p.2)) := by
  induction steps generalizing s with
  | nil => exact h
  | cons p steps ih =>
    obtain ⟨f, hf, -, hafter⟩ := stepWith_asAtReset h p.1 p.2
    have hmove : applyMove s (.step p.1 p.2) = f.after :=
      congrArg (fun r => (stateAndResult s r).1) hf
    exact ih (hmove.symm ▸ hafter)

/-! ### The first word of an image (rule R196) -/

theorem wordAtPc_bootImage (s : State) {hi lo : Byte} {rest : List Byte} (hlen : rest.length + 2 ≤ 3584) :
    ((hostReset s).setMem (Memory.writeBytes (hostReset s).mem 0x200 (hi :: lo :: rest))).wordAtPc =
      wordOfBytes hi lo :=
  wordAtPc_stored (s := hostReset s) rfl (Nat.add_le_add_left hlen 0x200)

theorem aboutToRun_bootImage (s : State) {hi lo : Byte} {rest : List Byte} {i : Instr}
    (hlen : rest.length + 2 ≤ 3584) (hdec : decodeWord (wordOfBytes hi lo) = .ok i) :
    ((hostReset s).setMem (Memory.writeBytes (hostReset s).mem 0x200 (hi :: lo :: rest))).AboutToRun i :=
  ⟨show 0x200 ≤ 0xFFE by decide, (congrArg decodeWord (wordAtPc_bootImage s hlen)).trans hdec⟩

end Sys2Proof.Machine

/-! ### The obligations -/

open Sys2Proof Sys2Proof.Machine

/-- Settles O52: the record of the reset state, piece by piece, and the font table read back through an empty
memory list. -/
theorem resetLeavesStatedValues : Obligations.ResetLeavesStatedValues :=
  ⟨reset_readV, rfl, rfl, rfl, reset_stack, rfl, rfl, rfl, rfl, rfl, rfl, fun _ => resetByte_of_ge,
    blankDisplay_cell, reset_keyDown, rfl, rfl, rfl⟩

/-- Settles O53: `Reset` is the reset state with the inputs put back. -/
theorem hostResetRestoresResetState : Obligations.HostResetRestoresResetState :=
  fun s => ⟨asAtReset_hostReset s, rfl⟩

/-- Settles O55: each operation is one update of the piece it names. -/
theorem hostKeyAndFlagOperations : Obligations.HostKeyAndFlagOperations :=
  fun s => ⟨fun k b => ⟨(keyDown_setKey s k b k).trans (if_pos rfl),
      fun j hj => (keyDown_setKey s k b j).trans (if_neg hj), changesOnly_setKey s k b⟩,
    ⟨rfl, changesOnly_setNeedDraw s false⟩, rfl, changesOnly_setWaitInput s false⟩

/-- Settles O56: a `Step` from a state as at reset leaves one, however many have gone before. -/
theorem noProgramFaults : Obligations.NoProgramFaults := by
  intro s earlier tickEn rand
  obtain ⟨f, hf, hcause, hafter⟩ :=
    stepWith_asAtReset (applyMoves_steps_asAtReset (asAtReset_hostReset s) earlier) tickEn rand
  have hpc : f.after.pc = State.reset.pc := hafter .pc (by decide)
  exact ⟨f, hf, hcause, congrArg BitVec.toNat hpc, (asAtReset_hostReset s).symm.trans hafter⟩

/-- Settles O57: the image is stored where `PC` stands after reset, and its first two bytes make the word. -/
theorem firstInstructionAfterBoot : Obligations.FirstInstructionAfterBoot := by
  intro tickEn rand s hi lo rest i hlen hdec
  have hrun := aboutToRun_bootImage s hlen hdec
  obtain ⟨hpc, hsp, hi, hv⟩ : (hostReset s).pc.toNat = 0x200 ∧ (hostReset s).sp = 0 ∧
      (hostReset s).i = 0 ∧ ∀ r, (hostReset s).readV r = 0 := ⟨rfl, rfl, rfl, reset_readV⟩
  exact ⟨_, _, hostLoadROM_of_fits hlen, stepWith_of_aboutToRun hrun tickEn rand, by simpa using hpc,
    by simpa using hsp, by simpa using hi, wordAtPc_bootImage s hlen, fun r => by simpa using hv r⟩

/-- Settles O58: `r * 64 + c` has quotient `r` and remainder `c` by 64. -/
theorem hostSeesTheGrid : Obligations.HostSeesTheGrid := by
  intro s r c k hk
  have hrow : k.val / 64 = r.val := by omega
  have hcol : k.val % 64 = c.val := by omega
  refine ⟨?_, rfl⟩
  simp only [State.gridBit, hrow, hcol]
  rfl

end
